-- ==== Sys2Proof/Word.lean ====
section
/-!
DEFINITION. The words of the machine (spec/00_scope.md R7, R9): an 8-bit byte (a register, a memory cell, a timer), a
16-bit word (I, pc, a stack slot, an instruction word) and the register index type, V0..VF.
-/

namespace Sys2Proof

/-- An 8-bit value: a general register, a memory cell, a timer (R7 `VREG_BITS`, `TIMER_BITS`). -/
abbrev Byte := BitVec 8

/-- A 16-bit value: I, pc, a stack slot, an instruction word (R7 `I_BITS`, `PC_BITS`, `STACK_ENTRY_BITS`, `INSN_BITS`). -/
abbrev Word := BitVec 16

/-- The index of a general register, V0 (0) to VF (15) (R21, R72: all 16 values are legal in every instruction). -/
abbrev Reg := Fin 16

/-- VF, register 15, "also used as a flag output by several instructions" (R13, R22). -/
abbrev VF : Reg := 15

/-- The highest memory address, `ADDR_MAX` (R7). -/
abbrev addrMax : Nat := 0xFFF

/-- The load address of a program and the reset value of pc, `PROG_BASE` (R7). -/
abbrev progBase : Nat := 0x200

/-- The largest program the loader accepts, `PROG_MAX` = 4096 - 512 bytes (R7). -/
abbrev progMax : Nat := 3584

/-- The number of fontset bytes, 16 glyphs of 5 bytes at 0x000..0x04F (R7). -/
abbrev fontBytes : Nat := 80

end Sys2Proof
end

