-- ==== Sys2Proof/Config.lean ====
section
/-!
DEFINITION. What one implementation fixes and what the spec leaves free (spec/00_scope.md R8, spec/10_state.md R34,
spec/92_eei_decisions.md D10, D11, D12, D15): the four parameters of a machine, gathered in `Params`, and the free
byte that CXNN draws. The default values stand in Machine/Font.lean.
-/

namespace Sys2Proof

/-- `SPRITE_OOB_POLICY` (R8, R162): what DXYN does with a set sprite bit off the 64x32 grid. -/
inductive SpriteOobPolicy where
  /-- the bit is dropped: no pixel, no collision -/
  | clip
  /-- the coordinate is reduced modulo the framebuffer's dimensions -/
  | wrap
  /-- the instruction raises `SpriteOutOfBounds` before any write -/
  | reject
deriving DecidableEq, Repr

/-- `FONT_WRITE_POLICY` (R8, R52): what FX33 and FX55 do when a target lies in the font region. -/
inductive FontWritePolicy where
  /-- the instruction raises `FontWrite` before any write -/
  | fault
  /-- the store proceeds like any other -/
  | write
deriving DecidableEq, Repr

/-- `RANDOM_MAX` (R8, R136): the largest byte CXNN can draw; the spec gives two values. -/
inductive RandomMax where
  | max255
  | max254
deriving DecidableEq, Repr

/-- The number that a value of `RANDOM_MAX` stands for. -/
def RandomMax.toNat : RandomMax → Nat
  | .max255 => 255
  | .max254 => 254

/-- The parameters of one machine, fixed for its life (R8, R34): no step and no host operation changes them.
DESIGN CHOICE (log entry 1): they are carried in `State`, because the step is a function of the state alone, so that
every statement about all states is a statement about all four parameters as well. -/
structure Params where
  /-- `SPRITE_OOB_POLICY` -/
  sprite : SpriteOobPolicy
  /-- `FONT_WRITE_POLICY` -/
  fontWrite : FontWritePolicy
  /-- `RANDOM_MAX` -/
  randomMax : RandomMax
  /-- `FONTSET`: byte k is the reset content of address k -/
  fontset : Vector Byte 80
deriving DecidableEq, Repr

/-- The free byte of the k-th random draw (R136: "an unconstrained input of the step (any value in range, no law
relating two draws)"). It has no body, so nothing can be proved of its value (log entry 3). -/
opaque Config.freeByte : Nat → Byte

end Sys2Proof
end

