-- ==== Sys2Proof/Syntax.lean ====
section
/-!
DEFINITION. The 34 instructions of the opcode table (spec/30_encoding.md R73, spec/opcode_table.json), one constructor
a row and in the table's order. The operands are the fields of R71 and R72: `x`, `y` a register index, `nn` an 8-bit
literal, `nnn` a 12-bit literal, `n` a 4-bit literal; each field's type is exactly its range, so every term is an
instruction of the machine (log entry 9).
-/

namespace Sys2Proof

/-- An instruction of the machine (R73). -/
inductive Instr where
  /-- `00E0` CLS: clear the framebuffer (R160) -/
  | cls
  /-- `00EE` RET: return from subroutine (R102) -/
  | ret
  /-- `1NNN` JP: jump (R100) -/
  | jp (nnn : BitVec 12)
  /-- `2NNN` CALL: call subroutine (R101) -/
  | call (nnn : BitVec 12)
  /-- `3XNN` SE_VX_NN: skip if register equals byte (R103) -/
  | seVxNn (x : Reg) (nn : Byte)
  /-- `4XNN` SNE_VX_NN: skip if register differs from byte (R104) -/
  | sneVxNn (x : Reg) (nn : Byte)
  /-- `5XY0` SE_VX_VY: skip if registers are equal (R105) -/
  | seVxVy (x y : Reg)
  /-- `6XNN` LD_VX_NN: load byte (R120) -/
  | ldVxNn (x : Reg) (nn : Byte)
  /-- `7XNN` ADD_VX_NN: add byte, no carry (R121) -/
  | addVxNn (x : Reg) (nn : Byte)
  /-- `8XY0` LD_VX_VY: copy register (R122) -/
  | ldVxVy (x y : Reg)
  /-- `8XY1` OR (R123) -/
  | or (x y : Reg)
  /-- `8XY2` AND (R124) -/
  | and (x y : Reg)
  /-- `8XY3` XOR (R125) -/
  | xor (x y : Reg)
  /-- `8XY4` ADD_VX_VY: add with carry out to VF (R126) -/
  | addVxVy (x y : Reg)
  /-- `8XY5` SUB: V[x] minus V[y] (R127) -/
  | sub (x y : Reg)
  /-- `8XY6` SHR: shift right one bit; Y is ignored (R128, R76) but kept, so that no bit of the word is lost -/
  | shr (x y : Reg)
  /-- `8XY7` SUBN: V[y] minus V[x] (R129) -/
  | subn (x y : Reg)
  /-- `8XYE` SHL: shift left one bit; Y is ignored (R130, R76) but kept, so that no bit of the word is lost -/
  | shl (x y : Reg)
  /-- `9XY0` SNE_VX_VY: skip if registers differ (R106) -/
  | sneVxVy (x y : Reg)
  /-- `ANNN` LD_I_NNN: load index register (R140) -/
  | ldINnn (nnn : BitVec 12)
  /-- `BNNN` JP_V0: jump to address plus V0 (R107) -/
  | jpV0 (nnn : BitVec 12)
  /-- `CXNN` RND: random byte masked (R136) -/
  | rnd (x : Reg) (nn : Byte)
  /-- `DXYN` DRW: draw an N-row sprite (R161) -/
  | drw (x y : Reg) (n : BitVec 4)
  /-- `EX9E` SKP: skip if key V[x] is pressed (R175) -/
  | skp (x : Reg)
  /-- `EXA1` SKNP: skip if key V[x] is not pressed (R176) -/
  | sknp (x : Reg)
  /-- `FX07` LD_VX_DT: read delay timer (R172) -/
  | ldVxDt (x : Reg)
  /-- `FX0A` LD_VX_K: wait for a key (R177) -/
  | ldVxK (x : Reg)
  /-- `FX15` LD_DT_VX: set delay timer (R173) -/
  | ldDtVx (x : Reg)
  /-- `FX18` LD_ST_VX: set sound timer (R174) -/
  | ldStVx (x : Reg)
  /-- `FX1E` ADD_I_VX: add register to index (R141) -/
  | addIVx (x : Reg)
  /-- `FX29` LD_F_VX: point I at a font glyph (R142) -/
  | ldFVx (x : Reg)
  /-- `FX33` LD_B_VX: store binary-coded decimal (R143) -/
  | ldBVx (x : Reg)
  /-- `FX55` LD_MI_VX: store registers V0..VX (R144) -/
  | ldMiVx (x : Reg)
  /-- `FX65` LD_VX_MI: load registers V0..VX (R145) -/
  | ldVxMi (x : Reg)
deriving DecidableEq, Repr

end Sys2Proof
end

