-- ==== Sys2Proof/WellFormed.lean ====
section
/-!
DEFINITION. What is well formed, and what is refused, before anything runs: an instruction's operands (spec/30_encoding.md
R72), an instruction word against the opcode table (R73, R75), and a program image against the loader's bound
(spec/70_reset_and_hazards.md R232).
-/

namespace Sys2Proof

/-- The ranges of the operand fields, as numbers (R71, R72): a register index below 16, a byte literal below 256, an
address literal below 4096, a row count below 16. The field types already confine each operand (log entry 9), so the
check holds of every term. -/
def Instr.wellFormed : Instr → Bool
  | .cls | .ret => true
  | .jp nnn | .call nnn | .ldINnn nnn | .jpV0 nnn => nnn.toNat < 4096
  | .seVxNn x nn | .sneVxNn x nn | .ldVxNn x nn | .addVxNn x nn | .rnd x nn => x.val < 16 && nn.toNat < 256
  | .seVxVy x y | .ldVxVy x y | .or x y | .and x y | .xor x y | .addVxVy x y | .sub x y | .shr x y | .subn x y
  | .shl x y | .sneVxVy x y => x.val < 16 && y.val < 16
  | .drw x y n => x.val < 16 && y.val < 16 && n.toNat < 16
  | .skp x | .sknp x | .ldVxDt x | .ldVxK x | .ldDtVx x | .ldStVx x | .addIVx x | .ldFVx x | .ldBVx x | .ldMiVx x
  | .ldVxMi x => x.val < 16

/-- A row of the opcode table (R73): a word `op` encodes the row's instruction when `op & mask = pattern`. -/
structure OpcodeRow where
  pattern : Word
  mask : Word
  mnemonic : String
deriving DecidableEq, Repr

/-- The word is one of the row's (R73). -/
def OpcodeRow.holds (r : OpcodeRow) (w : Word) : Bool := w &&& r.mask == r.pattern

/-- Rows of the opcode table (R73), part 1 of 4. -/
def opcodeRows1 : List OpcodeRow := [
  ⟨0x00E0, 0xFFFF, "CLS"⟩,
  ⟨0x00EE, 0xFFFF, "RET"⟩,
  ⟨0x1000, 0xF000, "JP"⟩,
  ⟨0x2000, 0xF000, "CALL"⟩,
  ⟨0x3000, 0xF000, "SE_VX_NN"⟩,
  ⟨0x4000, 0xF000, "SNE_VX_NN"⟩,
  ⟨0x5000, 0xF00F, "SE_VX_VY"⟩,
  ⟨0x6000, 0xF000, "LD_VX_NN"⟩,
  ⟨0x7000, 0xF000, "ADD_VX_NN"⟩]

/-- Rows of the opcode table (R73), part 2 of 4. -/
def opcodeRows2 : List OpcodeRow := [
  ⟨0x8000, 0xF00F, "LD_VX_VY"⟩,
  ⟨0x8001, 0xF00F, "OR"⟩,
  ⟨0x8002, 0xF00F, "AND"⟩,
  ⟨0x8003, 0xF00F, "XOR"⟩,
  ⟨0x8004, 0xF00F, "ADD_VX_VY"⟩,
  ⟨0x8005, 0xF00F, "SUB"⟩,
  ⟨0x8006, 0xF00F, "SHR"⟩,
  ⟨0x8007, 0xF00F, "SUBN"⟩,
  ⟨0x800E, 0xF00F, "SHL"⟩]

/-- Rows of the opcode table (R73), part 3 of 4. -/
def opcodeRows3 : List OpcodeRow := [
  ⟨0x9000, 0xF00F, "SNE_VX_VY"⟩,
  ⟨0xA000, 0xF000, "LD_I_NNN"⟩,
  ⟨0xB000, 0xF000, "JP_V0"⟩,
  ⟨0xC000, 0xF000, "RND"⟩,
  ⟨0xD000, 0xF000, "DRW"⟩,
  ⟨0xE09E, 0xF0FF, "SKP"⟩,
  ⟨0xE0A1, 0xF0FF, "SKNP"⟩,
  ⟨0xF007, 0xF0FF, "LD_VX_DT"⟩]

/-- Rows of the opcode table (R73), part 4 of 4. -/
def opcodeRows4 : List OpcodeRow := [
  ⟨0xF00A, 0xF0FF, "LD_VX_K"⟩,
  ⟨0xF015, 0xF0FF, "LD_DT_VX"⟩,
  ⟨0xF018, 0xF0FF, "LD_ST_VX"⟩,
  ⟨0xF01E, 0xF0FF, "ADD_I_VX"⟩,
  ⟨0xF029, 0xF0FF, "LD_F_VX"⟩,
  ⟨0xF033, 0xF0FF, "LD_B_VX"⟩,
  ⟨0xF055, 0xF0FF, "LD_MI_VX"⟩,
  ⟨0xF065, 0xF0FF, "LD_VX_MI"⟩]

/-- The opcode table (R73, spec/opcode_table.json), row for row. -/
def opcodeTable : List OpcodeRow := opcodeRows1 ++ opcodeRows2 ++ opcodeRows3 ++ opcodeRows4

/-- The instruction's name in the opcode table (R73). -/
def Instr.mnemonic : Instr → String
  | .cls => "CLS"
  | .ret => "RET"
  | .jp _ => "JP"
  | .call _ => "CALL"
  | .seVxNn _ _ => "SE_VX_NN"
  | .sneVxNn _ _ => "SNE_VX_NN"
  | .seVxVy _ _ => "SE_VX_VY"
  | .ldVxNn _ _ => "LD_VX_NN"
  | .addVxNn _ _ => "ADD_VX_NN"
  | .ldVxVy _ _ => "LD_VX_VY"
  | .or _ _ => "OR"
  | .and _ _ => "AND"
  | .xor _ _ => "XOR"
  | .addVxVy _ _ => "ADD_VX_VY"
  | .sub _ _ => "SUB"
  | .shr _ _ => "SHR"
  | .subn _ _ => "SUBN"
  | .shl _ _ => "SHL"
  | .sneVxVy _ _ => "SNE_VX_VY"
  | .ldINnn _ => "LD_I_NNN"
  | .jpV0 _ => "JP_V0"
  | .rnd _ _ => "RND"
  | .drw _ _ _ => "DRW"
  | .skp _ => "SKP"
  | .sknp _ => "SKNP"
  | .ldVxDt _ => "LD_VX_DT"
  | .ldVxK _ => "LD_VX_K"
  | .ldDtVx _ => "LD_DT_VX"
  | .ldStVx _ => "LD_ST_VX"
  | .addIVx _ => "ADD_I_VX"
  | .ldFVx _ => "LD_F_VX"
  | .ldBVx _ => "LD_B_VX"
  | .ldMiVx _ => "LD_MI_VX"
  | .ldVxMi _ => "LD_VX_MI"

/-- The word is some row's: it is not in the unknown space (R73, R75). -/
def wordWellFormed (w : Word) : Bool := opcodeTable.any (·.holds w)

/-- The loader accepts the program image (R232): its length is at most 3584 bytes. -/
def imageWellFormed (bytes : List Byte) : Bool := bytes.length ≤ progMax

end Sys2Proof
end

