-- ==== Sys2Proof/Decode.lean ====
section
/-!
DEFINITION. From words to instructions and back (spec/30_encoding.md): the fields of R71, `decodeWord` in the shape of R74,
the byte-level decoder with the big-endian order of spec/20_memory.md R57, then the encoder written from the table of R73.
-/

namespace Sys2Proof

/-! ### Fields (R71) -/

/-- Bits 15..12, the instruction family (R71). -/
def famField (w : Word) : BitVec 4 := w.extractLsb' 12 4

/-- Bits 11..8, the X field, a register index (R71). -/
def xField (w : Word) : Reg := (w.extractLsb' 8 4).toFin

/-- Bits 7..4, the Y field, a register index (R71). -/
def yField (w : Word) : Reg := (w.extractLsb' 4 4).toFin

/-- Bits 3..0, the N field (R71). -/
def nField (w : Word) : BitVec 4 := w.extractLsb' 0 4

/-- Bits 7..0, the NN field (R71). -/
def nnField (w : Word) : Byte := w.extractLsb' 0 8

/-- Bits 11..0, the NNN field (R71). -/
def nnnField (w : Word) : BitVec 12 := w.extractLsb' 0 12

/-- The 16-bit word of two bytes, the first (lower address) in bits 15..8 (R57: big-endian). -/
def wordOfBytes (hi lo : Byte) : Word := hi ++ lo

/-! ### Decoding (R74) -/

/-- Family 0: only the two whole words 00E0 and 00EE (R74). -/
def decodeFam0 (w : Word) : Option Instr :=
  if w = 0x00E0 then some .cls else if w = 0x00EE then some .ret else none

/-- Family 8: the low nibble selects (R74). -/
def decodeFam8 (w : Word) : Option Instr :=
  let x := xField w
  let y := yField w
  let n := nField w
  if n = 0x0 then some (.ldVxVy x y)
  else if n = 0x1 then some (.or x y)
  else if n = 0x2 then some (.and x y)
  else if n = 0x3 then some (.xor x y)
  else if n = 0x4 then some (.addVxVy x y)
  else if n = 0x5 then some (.sub x y)
  else if n = 0x6 then some (.shr x y)
  else if n = 0x7 then some (.subn x y)
  else if n = 0xE then some (.shl x y)
  else none

/-- Family E: the low byte selects (R74). -/
def decodeFamE (w : Word) : Option Instr :=
  if nnField w = 0x9E then some (.skp (xField w))
  else if nnField w = 0xA1 then some (.sknp (xField w))
  else none

/-- Family F: the low byte selects (R74). -/
def decodeFamF (w : Word) : Option Instr :=
  let x := xField w
  let nn := nnField w
  if nn = 0x07 then some (.ldVxDt x)
  else if nn = 0x0A then some (.ldVxK x)
  else if nn = 0x15 then some (.ldDtVx x)
  else if nn = 0x18 then some (.ldStVx x)
  else if nn = 0x1E then some (.addIVx x)
  else if nn = 0x29 then some (.ldFVx x)
  else if nn = 0x33 then some (.ldBVx x)
  else if nn = 0x55 then some (.ldMiVx x)
  else if nn = 0x65 then some (.ldVxMi x)
  else none

/-- Decoding, total on every word (R74); `none` is R74's `Unknown`. Every literal digit of a pattern is checked (R73, the
spec's own choice D3, log entry 17). -/
def decodeWord (w : Word) : Option Instr :=
  let f := famField w
  if f = 0x0 then decodeFam0 w
  else if f = 0x1 then some (.jp (nnnField w))
  else if f = 0x2 then some (.call (nnnField w))
  else if f = 0x3 then some (.seVxNn (xField w) (nnField w))
  else if f = 0x4 then some (.sneVxNn (xField w) (nnField w))
  else if f = 0x5 then (if nField w = 0 then some (.seVxVy (xField w) (yField w)) else none)
  else if f = 0x6 then some (.ldVxNn (xField w) (nnField w))
  else if f = 0x7 then some (.addVxNn (xField w) (nnField w))
  else if f = 0x8 then decodeFam8 w
  else if f = 0x9 then (if nField w = 0 then some (.sneVxVy (xField w) (yField w)) else none)
  else if f = 0xA then some (.ldINnn (nnnField w))
  else if f = 0xB then some (.jpV0 (nnnField w))
  else if f = 0xC then some (.rnd (xField w) (nnField w))
  else if f = 0xD then some (.drw (xField w) (yField w) (nField w))
  else if f = 0xE then decodeFamE w
  else decodeFamF w

/-- What the decoder answers on bytes: an instruction, or by name why there is none. -/
inductive Decoded where
  /-- the instruction of the first two bytes -/
  | instr (i : Instr)
  /-- the first two bytes hold a word of the unknown space (R75) -/
  | unknownOpcode (w : Word)
  /-- fewer than two bytes: no word can be formed (R70) -/
  | truncated
deriving DecidableEq, Repr

/-- Decoding of bytes in memory order (R57, R70, R74); the bytes after the first two are never looked at (R70). -/
def decodeBytes : List Byte → Decoded
  | hi :: lo :: _ =>
    match decodeWord (wordOfBytes hi lo) with
    | some i => .instr i
    | none => .unknownOpcode (wordOfBytes hi lo)
  | _ => .truncated

/-- The two bytes of a word in memory order, high byte first (R57). -/
def bytesOfWord (w : Word) : List Byte := [w.extractLsb' 8 8, w.extractLsb' 0 8]

/-- The low `nbits` bits of `w` as an instruction word, if they fit one (every instruction is one 16-bit word, R70, R77). -/
def tableWord (nbits w : Nat) : Option Word :=
  let v := w % 2 ^ nbits
  if v < 65536 then some (BitVec.ofNat 16 v) else none

/-- The instruction the decoder reads from the word `w`, numbered as spec/opcode_table.json numbers it. -/
def decodeTableWord (nbits w : Nat) : Option Instr :=
  match tableWord nbits w with
  | none => none
  | some v =>
    match decodeBytes (bytesOfWord v) with
    | .instr i => some i
    | .unknownOpcode _ => none
    | .truncated => none

/-! ### Encoding (R73) -/

/-- The register's index as a 4-bit field (R71). -/
def regBits (r : Reg) : BitVec 4 := BitVec.ofFin r

/-- A word of the shape `fNNN` (R73). -/
def packNnn (f : BitVec 4) (nnn : BitVec 12) : Word := f ++ nnn

/-- A word of the shape `fXNN` (R73). -/
def packXnn (f : BitVec 4) (x : Reg) (nn : Byte) : Word := f ++ regBits x ++ nn

/-- A word of the shape `fXYN` (R73). -/
def packXyn (f : BitVec 4) (x y : Reg) (n : BitVec 4) : Word := f ++ regBits x ++ regBits y ++ n

/-- The instruction's word (R73, the patterns of spec/opcode_table.json). -/
def encodeWord : Instr → Word
  | .cls => 0x00E0
  | .ret => 0x00EE
  | .jp nnn => packNnn 0x1 nnn
  | .call nnn => packNnn 0x2 nnn
  | .seVxNn x nn => packXnn 0x3 x nn
  | .sneVxNn x nn => packXnn 0x4 x nn
  | .seVxVy x y => packXyn 0x5 x y 0x0
  | .ldVxNn x nn => packXnn 0x6 x nn
  | .addVxNn x nn => packXnn 0x7 x nn
  | .ldVxVy x y => packXyn 0x8 x y 0x0
  | .or x y => packXyn 0x8 x y 0x1
  | .and x y => packXyn 0x8 x y 0x2
  | .xor x y => packXyn 0x8 x y 0x3
  | .addVxVy x y => packXyn 0x8 x y 0x4
  | .sub x y => packXyn 0x8 x y 0x5
  | .shr x y => packXyn 0x8 x y 0x6
  | .subn x y => packXyn 0x8 x y 0x7
  | .shl x y => packXyn 0x8 x y 0xE
  | .sneVxVy x y => packXyn 0x9 x y 0x0
  | .ldINnn nnn => packNnn 0xA nnn
  | .jpV0 nnn => packNnn 0xB nnn
  | .rnd x nn => packXnn 0xC x nn
  | .drw x y n => packXyn 0xD x y n
  | .skp x => packXnn 0xE x 0x9E
  | .sknp x => packXnn 0xE x 0xA1
  | .ldVxDt x => packXnn 0xF x 0x07
  | .ldVxK x => packXnn 0xF x 0x0A
  | .ldDtVx x => packXnn 0xF x 0x15
  | .ldStVx x => packXnn 0xF x 0x18
  | .addIVx x => packXnn 0xF x 0x1E
  | .ldFVx x => packXnn 0xF x 0x29
  | .ldBVx x => packXnn 0xF x 0x33
  | .ldMiVx x => packXnn 0xF x 0x55
  | .ldVxMi x => packXnn 0xF x 0x65

/-- The words of an instruction: one (R70, R77). -/
def encode (i : Instr) : List Word := [encodeWord i]

/-- The instruction's bytes in memory order (R57). -/
def encodeBytes (i : Instr) : List Byte := bytesOfWord (encodeWord i)

end Sys2Proof
end

