-- ==== Sys2Proof/Machine/Flags.lean ====
section
/-!
DEFINITION. The flag values that instructions write to VF (spec/10_state.md R22), each computed from the operands as natural
numbers and unsigned (spec/42_alu.md R131).
-/

namespace Sys2Proof.Machine

/-- 1 for true, 0 for false. -/
def flagByte (b : Bool) : Byte := if b then 1 else 0

/-- The carry of 8XY4: `(sum > 255) ? 1 : 0` (R126). -/
def carryFlag (a b : Byte) : Byte := flagByte (decide (a.toNat + b.toNat > 255))

/-- The not-borrow of 8XY5 and 8XY7 for `a - b`: `(a < b) ? 0 : 1` (R127, R129). -/
def notBorrowFlag (a b : Byte) : Byte := flagByte (!decide (a.toNat < b.toNat))

/-- The bit shifted out to the right: `a & 1` (R128). -/
def lowBitFlag (a : Byte) : Byte := a &&& 1

/-- The bit shifted out to the left: `a >> 7` (R130). -/
def highBitFlag (a : Byte) : Byte := a >>> 7

/-- The index overflow of FX1E: `(I + V[x] > 0xFFF) ? 1 : 0`, a natural-number sum (R141). -/
def indexOverflowFlag (i : Word) (a : Byte) : Byte := flagByte (decide (i.toNat + a.toNat > 0xFFF))

end Sys2Proof.Machine
end

