-- ==== Sys2Proof/Machine/Font.lean ====
section
/-!
DEFINITION. The default parameters of a machine (spec/00_scope.md R8) and the default fontset (spec/20_memory.md R53).
-/

namespace Sys2Proof

/-- The default `FONTSET`, glyph d at bytes 5d .. 5d+4, top row first (R53). PRESUMED: the spec marks these bytes "from
general knowledge, not in source" (D15, log entry 2). -/
def defaultFontset : Vector Byte 80 :=
  (#v[0xF0, 0x90, 0x90, 0x90, 0xF0,   0x20, 0x60, 0x20, 0x20, 0x70,
      0xF0, 0x10, 0xF0, 0x80, 0xF0,   0xF0, 0x10, 0xF0, 0x10, 0xF0] : Vector Byte 20) ++
  (#v[0x90, 0x90, 0xF0, 0x10, 0x10,   0xF0, 0x80, 0xF0, 0x10, 0xF0,
      0xF0, 0x80, 0xF0, 0x90, 0xF0,   0xF0, 0x10, 0x20, 0x40, 0x40] : Vector Byte 20) ++
  (#v[0xF0, 0x90, 0xF0, 0x90, 0xF0,   0xF0, 0x90, 0xF0, 0x10, 0xF0,
      0xF0, 0x90, 0xF0, 0x90, 0x90,   0xE0, 0x90, 0xE0, 0x90, 0xE0] : Vector Byte 20) ++
  (#v[0xF0, 0x80, 0x80, 0x80, 0xF0,   0xE0, 0x90, 0x90, 0x90, 0xE0,
      0xF0, 0x80, 0xF0, 0x80, 0xF0,   0xF0, 0x80, 0xF0, 0x80, 0x80] : Vector Byte 20)

/-- The spec's default for each parameter (R8): clip, fault, 255, the table of R53 (log entry 2). -/
def Params.default : Params where
  sprite := .clip
  fontWrite := .fault
  randomMax := .max255
  fontset := defaultFontset

end Sys2Proof
end

