-- ==== Sys2Proof/Machine/State.lean ====
section
/-!
DEFINITION. The state of the machine as plain data (spec/10_state.md R20 to R36), the reasons a model step can stop
(none is ever reached), and the state after reset (R36, spec/70_reset_and_hazards.md R230).
-/

namespace Sys2Proof.Machine

/-- The model's own stops on a machine condition. There are none: every error the spec describes is the state
`Halted(reason, opcode, pc)`, which a step ENTERS (spec/60_exceptions.md R200, R201), so it is a next state and not a
fault (log entry 5). -/
inductive Fault where
deriving DecidableEq, Repr

/-- Why an instruction has no meaning. -/
inductive Refusal where
  /-- Raised by the dispatch for an instruction that has no meaning yet, under its mnemonic; safe (nothing is claimed of
  such a step). No arm of this model raises it. -/
  | notModelled (mnemonic : String)
deriving DecidableEq, Repr

/-- The causes of an error (spec/60_exceptions.md R202). -/
inductive HaltReason where
  /-- code 1: a word of the unknown space (R75, R203) -/
  | unknownOpcode
  /-- code 2: CALL with sp = 16 (R101, R204) -/
  | stackOverflow
  /-- code 3: RET with sp = 0 (R102, R204) -/
  | stackUnderflow
  /-- code 4: a fetch with pc > 0xFFE (R91) -/
  | fetchOutOfRange
  /-- code 5: a data address above 0xFFF (R55) -/
  | memoryOutOfRange
  /-- code 6: a store into the font region under the `fault` policy (R52) -/
  | fontWrite
  /-- code 7: a set sprite bit off screen under the `reject` policy (R162) -/
  | spriteOutOfBounds
  /-- code 8: SKP or SKNP with V[x] > 15 (R175, R176) -/
  | keyIndexOutOfRange
deriving DecidableEq, Repr

/-- The operating state (spec/10_state.md R33). -/
inductive RunState where
  /-- "steps normally" -/
  | running
  /-- Halted-on-error: the cause, the word being executed (0 when none could be fetched) and its address -/
  | halted (reason : HaltReason) (opcode : Word) (pc : Word)
deriving DecidableEq, Repr

/-- Memory as the list of the cells that differ from their reset contents, in rising order of address (log entry 8). -/
abbrev Memory := List Host.Cell

/-- The framebuffer: 32 rows of 64 pixels, `true` is on (R29); row y, column x is `fb[y][x]` (log entry 16). -/
abbrev Framebuffer := Vector (Vector Bool 64) 32

/-- The whole state (R20), and two fields of the model's own, `params` (log entry 1) and `draws` (log entry 3). -/
structure State where
  /-- the machine's parameters (R8, R34), which nothing changes -/
  params : Params
  /-- `mem` (R50) -/
  mem : Memory
  /-- `V`, V0..VF (R21) -/
  v : Vector Byte 16
  /-- `I` (R23) -/
  index : Word
  /-- `pc` (R24) -/
  pc : Word
  /-- `stack` (R25) -/
  stack : Vector Word 16
  /-- `sp`, 0 (empty) to 16 (full) (R26) -/
  sp : Fin 17
  /-- `DT`, the delay timer (R27) -/
  dt : Byte
  /-- `ST`, the sound timer (R28) -/
  st : Byte
  /-- `fb` (R29) -/
  fb : Framebuffer
  /-- `redraw` (R30) -/
  redraw : Bool
  /-- `key`, `true` is pressed (R31) -/
  key : Vector Bool 16
  /-- `sound_edge` (R32) -/
  soundEdge : Bool
  /-- `run` (R33) -/
  run : RunState
  /-- how many random bytes have been drawn: the index of the next free value (R136) -/
  draws : Nat
deriving DecidableEq, Repr

/-- Every pixel off (R29). -/
def blankScreen : Framebuffer := Vector.replicate 32 (Vector.replicate 64 false)

/-- The state after reset of a machine with the parameters `p` (R36, R230): memory at its reset contents, pc 0x200,
everything else 0, `Running`. -/
def State.resetWith (p : Params) : State where
  params := p
  mem := []
  v := Vector.replicate 16 0
  index := 0
  pc := 0x200
  stack := Vector.replicate 16 0
  sp := 0
  dt := 0
  st := 0
  fb := blankScreen
  redraw := false
  key := Vector.replicate 16 false
  soundEdge := false
  run := .running
  draws := 0

/-- The machine right after reset, with the spec's default parameters (R8, R36; log entry 2). -/
def State.reset : State := State.resetWith Params.default

end Sys2Proof.Machine
end

