-- ==== Sys2Proof/Machine/Memory.lean ====
section
/-!
DEFINITION. Memory (spec/20_memory.md): its reset contents, the read and the write of one byte (R56), and the canonical
form of the cell list. Wider accesses are several one-byte accesses in the instructions' own rules.
-/

namespace Sys2Proof.Machine

/-- What an unlisted address reads as: its reset contents, the fontset at 0x000..0x04F and 0 above (R36, R51). -/
def resetByte (p : Params) (a : Nat) : Byte :=
  if h : a < 80 then p.fontset[a] else 0

/-- The listed value of an address, if it is listed. -/
def Memory.lookup : Memory → Nat → Option Byte
  | [], _ => none
  | (k, c) :: rest, a => if a = k then some c else Memory.lookup rest a

/-- `MemRead(a, 1)` (R56). -/
def Memory.readByte (p : Params) (m : Memory) (a : Nat) : Byte :=
  (Memory.lookup m a).getD (resetByte p a)

/-- The list with the value of `a` put in its place. -/
def Memory.insert (a : Nat) (b : Byte) : Memory → Memory
  | [] => [(a, b)]
  | (k, c) :: rest =>
    if a < k then (a, b) :: (k, c) :: rest
    else if a = k then (a, b) :: rest
    else (k, c) :: Memory.insert a b rest

/-- The list without the address `a`. -/
def Memory.erase (a : Nat) : Memory → Memory
  | [] => []
  | (k, c) :: rest => if a = k then Memory.erase a rest else (k, c) :: Memory.erase a rest

/-- `MemWrite(a, 1, b)` (R56): a value equal to the reset contents is not listed. -/
def Memory.writeByte (p : Params) (m : Memory) (a : Nat) (b : Byte) : Memory :=
  if b = resetByte p a then Memory.erase a m else Memory.insert a b m

/-- The canonical form: addresses strictly rising, each at most 0xFFF (R50), and no entry equal to what its address reads
as when unlisted. -/
abbrev Memory.wf (p : Params) (m : Memory) : Prop :=
  List.Pairwise (fun c d => c.1 < d.1) m ∧ ∀ c ∈ m, c.1 ≤ addrMax ∧ c.2 ≠ resetByte p c.1

/-- `MemRead(a, 1)` of the state's memory (R10). -/
def State.readByte (s : State) (a : Nat) : Byte := Memory.readByte s.params s.mem a

/-- `MemWrite(a, 1, b)` into the state's memory (R10). -/
def State.writeByte (s : State) (a : Nat) (b : Byte) : State :=
  { s with mem := Memory.writeByte s.params s.mem a b }

end Sys2Proof.Machine
end

