-- ==== Sys2Proof/Machine/Operands.lean ====
section
/-!
DEFINITION. Operand forms: registers by index (spec/10_state.md R21), zero-extended literals (spec/30_encoding.md R72), effective
addresses (spec/20_memory.md R55), register ranges V0..VX, BCD digits, and sprite coordinates (spec/44_graphics.md R161,
R162).
-/

namespace Sys2Proof.Machine

/-- `V[r]` (R10, R21). -/
def State.reg (s : State) (r : Reg) : Byte := s.v[r.val]

/-- A 12-bit literal zero-extended to 16 bits (R72). -/
def wordOfNnn (nnn : BitVec 12) : Word := nnn.setWidth 16

/-- A byte zero-extended to 16 bits (R9 `zext_N`). -/
def wordOfByte (b : Byte) : Word := b.setWidth 16

/-- The effective address of an instruction's k-th data byte, `I + k`, a natural number without reduction (R55). -/
def State.dataAddr (s : State) (k : Nat) : Nat := s.index.toNat + k

/-- The font region holds the address (R52). -/
def inFont (a : Nat) : Bool := a < fontBytes

/-- The registers V0..Vx in ascending order, the operand of FX55 and FX65 (R144, R145). -/
def regsUpTo (x : Reg) : List Reg := (List.finRange 16).filter (fun k => k.val ≤ x.val)

/-- The hundreds, tens and ones of a byte (R143). -/
def bcdHundreds (v : Byte) : Byte := v / 100
def bcdTens (v : Byte) : Byte := v / 10 % 10
def bcdOnes (v : Byte) : Byte := v % 10

/-- The natural-number coordinates of the set bits of an n-row sprite at I with the origin (ox, oy): rows from the top,
bit 7 first (R161). -/
def State.spriteBits (s : State) (ox oy n : Nat) : List (Nat × Nat) :=
  (List.range n).flatMap fun r =>
    (List.range 8).filterMap fun c =>
      if (s.readByte (s.dataAddr r)).getLsbD (7 - c) then some (ox + c, oy + r) else none

/-- The coordinate is on the 64x32 grid (R162). -/
def onScreen (p : Nat × Nat) : Bool := decide (p.1 < 64) && decide (p.2 < 32)

/-- `target(px, py)` under a policy (R162). -/
def spriteTarget (pol : SpriteOobPolicy) (p : Nat × Nat) : Option (Fin 64 × Fin 32) :=
  match pol with
  | .clip | .reject => if h : p.1 < 64 ∧ p.2 < 32 then some (⟨p.1, h.1⟩, ⟨p.2, h.2⟩) else none
  | .wrap => some (Fin.ofNat 64 p.1, Fin.ofNat 32 p.2)

end Sys2Proof.Machine
end

