-- ==== Sys2Proof/Machine/Ops.lean ====
section
/-!
DEFINITION. The named operations every meaning is built from: register and pc writes (spec/10_state.md, spec/40_step.md R93), the
call stack (spec/41_control_flow.md R101, R102), raising an error (spec/60_exceptions.md R201), the timer tick
(spec/45_timers_keypad.md R170, R171), the random draw (spec/42_alu.md R136), pixels (spec/44_graphics.md R161) and the
transfer of a register range (spec/43_memory_index.md R144, R145).
-/

namespace Sys2Proof.Machine

/-! ### Registers and pc -/

/-- `V[r] <- b` (R10, R21). -/
def State.setReg (s : State) (r : Reg) (b : Byte) : State := { s with v := s.v.set r.val b }

/-- `I <- w` (R23). -/
def State.setIndex (s : State) (w : Word) : State := { s with index := w }

/-- `pc <- w` (R24). -/
def State.setPc (s : State) (w : Word) : State := { s with pc := w }

/-- The default advance, `pc <- trunc_16(pc0 + 2)` (R93). -/
def State.advance (s : State) : State := s.setPc (s.pc + 2)

/-- A skip instruction's advance: by 4 when the condition holds, else by 2 (R93). -/
def State.skipIf (s : State) (cond : Bool) : State := s.setPc (if cond then s.pc + 4 else s.pc + 2)

/-! ### Errors -/

/-- `raise Halt(reason)` while the word `op` is executed: only `run` changes, so pc stays at the failing instruction (R201).
The one way an error is taken; there is no return from it but reset (R207), `State.hostReset` in HostOps.lean. -/
def State.raiseHalt (s : State) (reason : HaltReason) (op : Word) : State :=
  { s with run := .halted reason op s.pc }

/-- The code of a cause (R202); 0 is free for `Running`. -/
def HaltReason.code : HaltReason → Nat
  | .unknownOpcode => 1
  | .stackOverflow => 2
  | .stackUnderflow => 3
  | .fetchOutOfRange => 4
  | .memoryOutOfRange => 5
  | .fontWrite => 6
  | .spriteOutOfBounds => 7
  | .keyIndexOutOfRange => 8

/-- The code the host can show for the operating state (R202, D16). -/
def RunState.code : RunState → Nat
  | .running => 0
  | .halted reason _ _ => reason.code

/-! ### Call stack -/

/-- `stack[j]` (R25). -/
def State.slot (s : State) (j : Fin 16) : Word := s.stack[j.val]

/-- `stack[sp] <- w; sp <- sp + 1`, or nothing when the stack is full (R101). -/
def State.push (s : State) (w : Word) : Option State :=
  if h : s.sp.val < 16 then
    some { s with stack := s.stack.set s.sp.val w, sp := ⟨s.sp.val + 1, by omega⟩ }
  else none

/-- `sp <- sp - 1` and the popped slot `stack[sp]`, which keeps its value, or nothing when the stack is empty (R102, R25). -/
def State.pop (s : State) : Option (State × Word) :=
  if h : 0 < s.sp.val then
    some ({ s with sp := ⟨s.sp.val - 1, by omega⟩ }, s.stack[s.sp.val - 1])
  else none

/-! ### Timers -/

/-- `DT <- b` (R173). -/
def State.setDelay (s : State) (b : Byte) : State := { s with dt := b }

/-- `ST <- b` (R174). -/
def State.setSound (s : State) (b : Byte) : State := { s with st := b }

/-- One decrement that saturates at 0 (R27, R28). -/
def countDown (b : Byte) : Byte := if b = 0 then 0 else b - 1

/-- The timer tick: DT, then the sound edge when ST is exactly 1, then ST (R170, R171). -/
def State.tick (s : State) : State :=
  { s with dt := countDown s.dt, soundEdge := s.soundEdge || decide (s.st = 1), st := countDown s.st }

/-! ### Random draw -/

/-- The draw's value in 0..RANDOM_MAX from a free byte: the byte itself, or the byte mod 255 (R136; the mod-255 form is
DESIGN CHOICE, log entry 3: it reaches every value in range and no other). -/
def drawValue (m : RandomMax) (b : Byte) : Byte :=
  match m with
  | .max255 => b
  | .max254 => b % 255

/-- The fresh input `r` of this step (R136): the free byte at the draw counter. -/
def State.draw (s : State) : Byte := drawValue s.params.randomMax (Config.freeByte s.draws)

/-- The draw has been used: the next one is another free value. -/
def State.countDraw (s : State) : State := { s with draws := s.draws + 1 }

/-! ### Keypad -/

/-- `key[b]`, or nothing when `b > 0xF` (R175, R176). -/
def State.keyAt (s : State) (b : Byte) : Option Bool :=
  if h : b.toNat < 16 then some s.key[b.toNat] else none

/-- The least pressed key, if there is one (R177; the scan order is the spec's own choice D14, log entry 11). -/
def State.firstKey (s : State) : Option (Fin 16) := (List.finRange 16).find? (fun k => s.key[k.val])

/-! ### Memory transfers -/

/-- Some address of I .. I+last is above 0xFFF (R55); the last one is the greatest. -/
def State.dataOutOfRange (s : State) (last : Nat) : Bool := decide (s.dataAddr last > addrMax)

/-- A store that starts at I meets the font region and the policy forbids it: `FONT_WRITE_POLICY = fault and I <= 0x04F`
(R52, R143, R144). -/
def State.fontForbids (s : State) : Bool :=
  decide (s.params.fontWrite = .fault) && inFont (s.dataAddr 0)

/-- `for k in rs: MemWrite(I + k, 1, V[k])` (R144). -/
def State.storeRegs (s : State) (rs : List Reg) : State :=
  rs.foldl (fun t k => t.writeByte (s.dataAddr k.val) (s.reg k)) s

/-- `for k in rs: V[k] <- MemRead(I + k, 1)` (R145). -/
def State.loadRegs (s : State) (rs : List Reg) : State :=
  rs.foldl (fun t k => t.setReg k (s.readByte (s.dataAddr k.val))) s

/-! ### Screen -/

/-- `fb[x][y]` (R29). -/
def Framebuffer.pixel (fb : Framebuffer) (x : Fin 64) (y : Fin 32) : Bool := fb[y.val][x.val]

/-- `fb[x][y]` of the state (R29). -/
def State.pixel (s : State) (x : Fin 64) (y : Fin 32) : Bool := Framebuffer.pixel s.fb x y

/-- `fb[x][y] <- fb[x][y] ^ 1` (R161). -/
def Framebuffer.toggle (fb : Framebuffer) (x : Fin 64) (y : Fin 32) : Framebuffer :=
  fb.set y.val (fb[y.val].set x.val (!fb[y.val][x.val]))

/-- The pixel loop of DXYN over the targets in order: the screen, and whether some target was on when it was reached
(R161). -/
def plot : List (Fin 64 × Fin 32) → Framebuffer × Bool → Framebuffer × Bool
  | [], acc => acc
  | p :: rest, acc =>
    plot rest (Framebuffer.toggle acc.1 p.1 p.2, acc.2 || Framebuffer.pixel acc.1 p.1 p.2)

/-- `fb <- fb'` and the redraw flag set (R160, R161; R30: unconditionally). -/
def State.setScreen (s : State) (fb : Framebuffer) : State := { s with fb := fb, redraw := true }

/-- DXYN's effect after its checks: VF is the collision flag, the targets of the set bits are toggled, the redraw flag is
set (R161). -/
def State.drawBits (s : State) (bits : List (Nat × Nat)) : State :=
  let res := plot (bits.filterMap (spriteTarget s.params.sprite)) (s.fb, false)
  (s.setReg VF (flagByte res.2)).setScreen res.1

end Sys2Proof.Machine
end

