-- ==== Sys2Proof/Machine/Alu.lean ====
section
/-!
DEFINITION. Register loads, logic, arithmetic and random (spec/42_alu.md R120 to R136), one meaning each; every one advances pc by
2. Where a rule writes VF first and the destination second, the second write reads the registers as the first left them
(spec/00_scope.md R11, log entry 10).
-/

namespace Sys2Proof.Machine

/-- LD_VX_NN (R120). -/
def execLdVxNn (x : Reg) (nn : Byte) (s : State) : Host.Outcome State Fault Refusal :=
  .next (s.setReg x nn).advance

/-- ADD_VX_NN (R121): wraps mod 256, no flag. -/
def execAddVxNn (x : Reg) (nn : Byte) (s : State) : Host.Outcome State Fault Refusal :=
  .next (s.setReg x (s.reg x + nn)).advance

/-- LD_VX_VY (R122). -/
def execLdVxVy (x y : Reg) (s : State) : Host.Outcome State Fault Refusal :=
  .next (s.setReg x (s.reg y)).advance

/-- OR (R123): VF is not reset. -/
def execOr (x y : Reg) (s : State) : Host.Outcome State Fault Refusal :=
  .next (s.setReg x (s.reg x ||| s.reg y)).advance

/-- AND (R124): VF is not reset. -/
def execAnd (x y : Reg) (s : State) : Host.Outcome State Fault Refusal :=
  .next (s.setReg x (s.reg x &&& s.reg y)).advance

/-- XOR (R125): VF is not reset. -/
def execXor (x y : Reg) (s : State) : Host.Outcome State Fault Refusal :=
  .next (s.setReg x (s.reg x ^^^ s.reg y)).advance

/-- ADD_VX_VY (R126): the sum is read before any write; VF, then V[x]. -/
def execAddVxVy (x y : Reg) (s : State) : Host.Outcome State Fault Refusal :=
  let sum := s.reg x + s.reg y
  let t := s.setReg VF (carryFlag (s.reg x) (s.reg y))
  .next (t.setReg x sum).advance

/-- SUB (R127): VF first, then V[x] from the registers after that write. -/
def execSub (x y : Reg) (s : State) : Host.Outcome State Fault Refusal :=
  let t := s.setReg VF (notBorrowFlag (s.reg x) (s.reg y))
  .next (t.setReg x (t.reg x - t.reg y)).advance

/-- SHR (R128): VF first, then V[x] from its value after that write; V[y] is neither read nor written (R76). -/
def execShr (x _y : Reg) (s : State) : Host.Outcome State Fault Refusal :=
  let t := s.setReg VF (lowBitFlag (s.reg x))
  .next (t.setReg x (t.reg x >>> 1)).advance

/-- SUBN (R129): VF first, then V[x] from the registers after that write. -/
def execSubn (x y : Reg) (s : State) : Host.Outcome State Fault Refusal :=
  let t := s.setReg VF (notBorrowFlag (s.reg y) (s.reg x))
  .next (t.setReg x (t.reg y - t.reg x)).advance

/-- SHL (R130): VF first, then V[x] from its value after that write; V[y] is neither read nor written (R76). -/
def execShl (x _y : Reg) (s : State) : Host.Outcome State Fault Refusal :=
  let t := s.setReg VF (highBitFlag (s.reg x))
  .next (t.setReg x (t.reg x <<< 1)).advance

/-- RND with the input `r` of this step given (R136). -/
def rndWith (r : Byte) (x : Reg) (nn : Byte) (s : State) : State :=
  (s.setReg x (r &&& nn)).countDraw.advance

/-- RND (R136): the input is the free value of this draw (log entry 3). -/
def execRnd (x : Reg) (nn : Byte) (s : State) : Host.Outcome State Fault Refusal :=
  .next (rndWith s.draw x nn s)

end Sys2Proof.Machine
end

