-- ==== Sys2Proof/Machine/ControlFlow.lean ====
section
/-!
DEFINITION. The control-flow instructions (spec/41_control_flow.md R100 to R107), one meaning each. None changes VF, I, the timers,
the framebuffer or memory.
-/

namespace Sys2Proof.Machine

/-- JP (R100). -/
def execJp (nnn : BitVec 12) (s : State) : Host.Outcome State Fault Refusal :=
  .next (s.setPc (wordOfNnn nnn))

/-- CALL (R101): pushes the address of this CALL, not pc0 + 2. -/
def execCall (nnn : BitVec 12) (s : State) : Host.Outcome State Fault Refusal :=
  match s.push s.pc with
  | some t => .next (t.setPc (wordOfNnn nnn))
  | none => .next (s.raiseHalt .stackOverflow (encodeWord (.call nnn)))

/-- RET (R102): the popped address plus 2. -/
def execRet (s : State) : Host.Outcome State Fault Refusal :=
  match s.pop with
  | some (t, w) => .next (t.setPc (w + 2))
  | none => .next (s.raiseHalt .stackUnderflow (encodeWord .ret))

/-- SE_VX_NN (R103). -/
def execSeVxNn (x : Reg) (nn : Byte) (s : State) : Host.Outcome State Fault Refusal :=
  .next (s.skipIf (s.reg x == nn))

/-- SNE_VX_NN (R104). -/
def execSneVxNn (x : Reg) (nn : Byte) (s : State) : Host.Outcome State Fault Refusal :=
  .next (s.skipIf (s.reg x != nn))

/-- SE_VX_VY (R105). -/
def execSeVxVy (x y : Reg) (s : State) : Host.Outcome State Fault Refusal :=
  .next (s.skipIf (s.reg x == s.reg y))

/-- SNE_VX_VY (R106). -/
def execSneVxVy (x y : Reg) (s : State) : Host.Outcome State Fault Refusal :=
  .next (s.skipIf (s.reg x != s.reg y))

/-- JP_V0 (R107): the sum fits 16 bits and is not masked to 12. -/
def execJpV0 (nnn : BitVec 12) (s : State) : Host.Outcome State Fault Refusal :=
  .next (s.setPc (wordOfNnn nnn + wordOfByte (s.reg 0)))

end Sys2Proof.Machine
end

