-- ==== Sys2Proof/Machine/Graphics.lean ====
section
/-!
DEFINITION. The graphics instructions (spec/44_graphics.md R160 to R162); both advance pc by 2.
-/

namespace Sys2Proof.Machine

/-- CLS (R160): every pixel off, the redraw flag set. -/
def execCls (s : State) : Host.Outcome State Fault Refusal :=
  .next (s.setScreen blankScreen).advance

/-- DRW (R161): the origin is read before VF is reset; the memory check before the sprite check (R205); then the draw. -/
def execDrw (x y : Reg) (n : BitVec 4) (s : State) : Host.Outcome State Fault Refusal :=
  let bits := s.spriteBits (s.reg x).toNat (s.reg y).toNat n.toNat
  if 1 ≤ n.toNat ∧ s.dataOutOfRange (n.toNat - 1) = true then
    .next (s.raiseHalt .memoryOutOfRange (encodeWord (.drw x y n)))
  else if s.params.sprite = .reject ∧ bits.all onScreen = false then
    .next (s.raiseHalt .spriteOutOfBounds (encodeWord (.drw x y n)))
  else .next (s.drawBits bits).advance

end Sys2Proof.Machine
end

