-- ==== Sys2Proof/Machine/IndexMemory.lean ====
section
/-!
DEFINITION. The index register and the memory transfers (spec/43_memory_index.md R140 to R145), one meaning each; every one advances
pc by 2. All checks come before the first write (spec/40_step.md R94), the range check before the font check
(spec/60_exceptions.md R205).
-/

namespace Sys2Proof.Machine

/-- LD_I_NNN (R140). -/
def execLdINnn (nnn : BitVec 12) (s : State) : Host.Outcome State Fault Refusal :=
  .next (s.setIndex (wordOfNnn nnn)).advance

/-- ADD_I_VX (R141): VF first, then I from V[x] after that write; I is not reduced to 12 bits. -/
def execAddIVx (x : Reg) (s : State) : Host.Outcome State Fault Refusal :=
  let t := s.setReg VF (indexOverflowFlag s.index (s.reg x))
  .next (t.setIndex (t.index + wordOfByte (t.reg x))).advance

/-- LD_F_VX (R142): V[x] * 5, not masked to a nibble. -/
def execLdFVx (x : Reg) (s : State) : Host.Outcome State Fault Refusal :=
  .next (s.setIndex (wordOfByte (s.reg x) * 5)).advance

/-- LD_B_VX (R143). -/
def execLdBVx (x : Reg) (s : State) : Host.Outcome State Fault Refusal :=
  if s.dataOutOfRange 2 then .next (s.raiseHalt .memoryOutOfRange (encodeWord (.ldBVx x)))
  else if s.fontForbids then .next (s.raiseHalt .fontWrite (encodeWord (.ldBVx x)))
  else
    let v := s.reg x
    .next ((((s.writeByte (s.dataAddr 0) (bcdHundreds v)).writeByte (s.dataAddr 1) (bcdTens v)).writeByte
      (s.dataAddr 2) (bcdOnes v)).advance)

/-- LD_MI_VX (R144). -/
def execLdMiVx (x : Reg) (s : State) : Host.Outcome State Fault Refusal :=
  if s.dataOutOfRange x.val then .next (s.raiseHalt .memoryOutOfRange (encodeWord (.ldMiVx x)))
  else if s.fontForbids then .next (s.raiseHalt .fontWrite (encodeWord (.ldMiVx x)))
  else .next ((s.storeRegs (regsUpTo x)).setIndex (s.index + BitVec.ofNat 16 (x.val + 1))).advance

/-- LD_VX_MI (R145). -/
def execLdVxMi (x : Reg) (s : State) : Host.Outcome State Fault Refusal :=
  if s.dataOutOfRange x.val then .next (s.raiseHalt .memoryOutOfRange (encodeWord (.ldVxMi x)))
  else .next ((s.loadRegs (regsUpTo x)).setIndex (s.index + BitVec.ofNat 16 (x.val + 1))).advance

end Sys2Proof.Machine
end

