-- ==== Sys2Proof/Machine/TimersKeypad.lean ====
section
/-!
DEFINITION. The timer and keypad instructions (spec/45_timers_keypad.md R172 to R177), one meaning each.
-/

namespace Sys2Proof.Machine

/-- LD_VX_DT (R172): the value before this step's tick (R178). -/
def execLdVxDt (x : Reg) (s : State) : Host.Outcome State Fault Refusal :=
  .next (s.setReg x s.dt).advance

/-- LD_DT_VX (R173). -/
def execLdDtVx (x : Reg) (s : State) : Host.Outcome State Fault Refusal :=
  .next (s.setDelay (s.reg x)).advance

/-- LD_ST_VX (R174). -/
def execLdStVx (x : Reg) (s : State) : Host.Outcome State Fault Refusal :=
  .next (s.setSound (s.reg x)).advance

/-- SKP (R175). -/
def execSkp (x : Reg) (s : State) : Host.Outcome State Fault Refusal :=
  match s.keyAt (s.reg x) with
  | some pressed => .next (s.skipIf pressed)
  | none => .next (s.raiseHalt .keyIndexOutOfRange (encodeWord (.skp x)))

/-- SKNP (R176). -/
def execSknp (x : Reg) (s : State) : Host.Outcome State Fault Refusal :=
  match s.keyAt (s.reg x) with
  | some pressed => .next (s.skipIf (!pressed))
  | none => .next (s.raiseHalt .keyIndexOutOfRange (encodeWord (.sknp x)))

/-- LD_VX_K (R177): takes the least pressed key, or completes with nothing written, so that the next step executes the same
word again. -/
def execLdVxK (x : Reg) (s : State) : Host.Outcome State Fault Refusal :=
  match s.firstKey with
  | some k => .next (s.setReg x (BitVec.ofNat 8 k.val)).advance
  | none => .next s

end Sys2Proof.Machine
end

