-- ==== Sys2Proof/Machine/Fetch.lean ====
section
/-!
DEFINITION. The parts of a step around `execute` (spec/40_step.md R90 to R95): fetching a word, and what follows an instruction
that completed or raised; and the placing of a word where the next fetch reads it.
-/

namespace Sys2Proof.Machine

/-- The word at pc, big-endian, or nothing when pc > 0xFFE (R91, R57). Fetch changes no state. -/
def State.fetch (s : State) : Option Word :=
  if s.pc.toNat > 0xFFE then none
  else some (wordOfBytes (s.readByte s.pc.toNat) (s.readByte (s.pc.toNat + 1)))

/-- The end of a step whose instruction left the state `t`: the tick if it completed, nothing if it raised (R90, R95,
R201). -/
def State.finish (t : State) : State :=
  match t.run with
  | .running => t.tick
  | .halted _ _ _ => t

/-- The address the next fetch reads if it is a legal one, else the reset entry point. -/
def State.fetchPlace (s : State) : Word := if s.pc.toNat > 0xFFE then 0x200 else s.pc

/-- The state with the word `w` at the place of the next fetch, Running (log entry 15). -/
def State.placeWord (s : State) (w : Word) : State :=
  let a := s.fetchPlace
  let t := (s.writeByte a.toNat (w.extractLsb' 8 8)).writeByte (a.toNat + 1) (w.extractLsb' 0 8)
  { t with pc := a, run := .running }

/-- The word that `withFetchWord` places: the low 16 of the `nbits` bits of `w` (R70: the longest instruction has 16). -/
def fetchWordOf (nbits w : Nat) : Word := BitVec.ofNat 16 (w % 2 ^ nbits)

end Sys2Proof.Machine
end

