-- ==== Sys2Proof/Machine/Step.lean ====
section
/-!
DEFINITION. One step (spec/40_step.md R90): fetch, decode, execute, tick; a no-op while halted (R96).
-/

namespace Sys2Proof.Machine

/-- `step()` (R90). The value it returns to the host is the field `run` of the next state (R97). -/
def step (s : State) : Host.Outcome State Fault Refusal :=
  match s.run with
  | .halted _ _ _ => .next s
  | .running =>
    match s.fetch with
    | none => .next (s.raiseHalt .fetchOutOfRange 0)
    | some op =>
      match decodeWord op with
      | none => .next (s.raiseHalt .unknownOpcode op)
      | some i =>
        match exec i s with
        | .next t => .next t.finish
        | .fault r => .fault r
        | .refused r => .refused r

/-- The state whose very next step fetches and runs the instruction word `w` (log entry 15). -/
def State.withFetchWord (s : State) (nbits w : Nat) : State := s.placeWord (fetchWordOf nbits w)

end Sys2Proof.Machine
end

