-- ==== Sys2Proof/Assembly.lean ====
section
/-!
DEFINITION. How an instruction is written (spec/30_encoding.md R78, the spec's own decision D17): its conventional assembler line,
numbers in hexadecimal. No behaviour depends on it.
-/

namespace Sys2Proof

/-- One hexadecimal digit. -/
def hexDigit (d : BitVec 4) : String :=
  (["0", "1", "2", "3", "4", "5", "6", "7", "8", "9", "A", "B", "C", "D", "E", "F"].getD d.toNat "")

/-- A byte as two digits. -/
def hexByte (b : Byte) : String := hexDigit (b.extractLsb' 4 4) ++ hexDigit (b.extractLsb' 0 4)

/-- An address as three digits. -/
def hexAddress (a : BitVec 12) : String := hexDigit (a.extractLsb' 8 4) ++ hexByte (a.extractLsb' 0 8)

/-- A register's name, V0 to VF. -/
def regName (r : Reg) : String := "V" ++ hexDigit (regBits r)

/-- A line of two operands. -/
def line2 (name a b : String) : String := name ++ " " ++ a ++ ", " ++ b

/-- The line of an instruction (R78). SHR and SHL are always written with their Y register, so that the line says every bit
of the word. -/
def Instr.text : Instr → String
  | .cls => "CLS"
  | .ret => "RET"
  | .jp nnn => "JP " ++ hexAddress nnn
  | .call nnn => "CALL " ++ hexAddress nnn
  | .seVxNn x nn => line2 "SE" (regName x) (hexByte nn)
  | .sneVxNn x nn => line2 "SNE" (regName x) (hexByte nn)
  | .seVxVy x y => line2 "SE" (regName x) (regName y)
  | .ldVxNn x nn => line2 "LD" (regName x) (hexByte nn)
  | .addVxNn x nn => line2 "ADD" (regName x) (hexByte nn)
  | .ldVxVy x y => line2 "LD" (regName x) (regName y)
  | .or x y => line2 "OR" (regName x) (regName y)
  | .and x y => line2 "AND" (regName x) (regName y)
  | .xor x y => line2 "XOR" (regName x) (regName y)
  | .addVxVy x y => line2 "ADD" (regName x) (regName y)
  | .sub x y => line2 "SUB" (regName x) (regName y)
  | .shr x y => line2 "SHR" (regName x) (regName y)
  | .subn x y => line2 "SUBN" (regName x) (regName y)
  | .shl x y => line2 "SHL" (regName x) (regName y)
  | .sneVxVy x y => line2 "SNE" (regName x) (regName y)
  | .ldINnn nnn => line2 "LD" "I" (hexAddress nnn)
  | .jpV0 nnn => line2 "JP" "V0" (hexAddress nnn)
  | .rnd x nn => line2 "RND" (regName x) (hexByte nn)
  | .drw x y n => line2 "DRW" (regName x) (regName y) ++ ", " ++ hexDigit n
  | .skp x => "SKP " ++ regName x
  | .sknp x => "SKNP " ++ regName x
  | .ldVxDt x => line2 "LD" (regName x) "DT"
  | .ldVxK x => line2 "LD" (regName x) "K"
  | .ldDtVx x => line2 "LD" "DT" (regName x)
  | .ldStVx x => line2 "LD" "ST" (regName x)
  | .addIVx x => line2 "ADD" "I" (regName x)
  | .ldFVx x => line2 "LD" "F" (regName x)
  | .ldBVx x => line2 "LD" "B" (regName x)
  | .ldMiVx x => line2 "LD" "[I]" (regName x)
  | .ldVxMi x => line2 "LD" (regName x) "[I]"

end Sys2Proof
end

