-- ==== Sys2Proof/Machine/HostOps.lean ====
section
/-!
DEFINITION. The operations by which the host drives the block, each between two steps (spec/60_exceptions.md R210 to R214,
spec/70_reset_and_hazards.md R230 to R234). All are allowed in every state, halted or running (D26).
-/

namespace Sys2Proof.Machine

/-- `reset()` from any state (R230): every element at its reset value; the parameters are not changed. The draw counter,
the model's own, goes on, so that a draw after a reset is still a fresh one (log entry 4). -/
def State.hostReset (s : State) : State := { State.resetWith s.params with draws := s.draws }

/-- `for i in 0 .. len-1: mem[a + i] <- bytes[i]` (R232). -/
def State.copyBytes (s : State) (a : Nat) : List Byte → State
  | [] => s
  | b :: rest => State.copyBytes (s.writeByte a b) (a + 1) rest

/-- `load(bytes)` (R232): nothing when the image is too large, and then no state changes. -/
def State.load (s : State) (bytes : List Byte) : Option State :=
  if imageWellFormed bytes then some (s.copyBytes progBase bytes) else none

/-- `set_key(k, b)` (R211). -/
def State.setKey (s : State) (k : Fin 16) (b : Bool) : State := { s with key := s.key.set k.val b }

/-- `clear_redraw()` (R212). -/
def State.clearRedraw (s : State) : State := { s with redraw := false }

/-- `clear_sound_edge()` (R212). -/
def State.clearSoundEdge (s : State) : State := { s with soundEdge := false }

/-- The host's reads (R213): the grid, the two flags and the operating state, without effect. -/
def State.hostView (s : State) : Framebuffer × Bool × Bool × RunState := (s.fb, s.redraw, s.soundEdge, s.run)

/-- A host operation other than a step (R210). -/
inductive HostOp where
  | reset
  | load (bytes : List Byte)
  | setKey (k : Fin 16) (pressed : Bool)
  | clearRedraw
  | clearSoundEdge
deriving DecidableEq, Repr

/-- The state after a host operation; a load that fails changes nothing (R232). -/
def State.hostDo (s : State) : HostOp → State
  | .reset => s.hostReset
  | .load bytes => (s.load bytes).getD s
  | .setKey k b => s.setKey k b
  | .clearRedraw => s.clearRedraw
  | .clearSoundEdge => s.clearSoundEdge

end Sys2Proof.Machine
end

