-- ==== Sys2Proof/Safety.lean ====
section
/-!
DEFINITION. The terms that statements about the machine use: what is unchanged between two states, what each instruction may write,
when a cause of an error applies (spec/60_exceptions.md R202), which pixels a sprite covers (spec/44_graphics.md R161,
R162), the machine's invariant, and the states a run with its host reaches.
-/

namespace Sys2Proof.Machine

/-! ### Frames -/

/-- The parts of the state (R20), the stack with its pointer, and the model's own `params` and `draws`. -/
inductive Part where
  | params | mem | regs | index | pc | stack | delay | sound | screen | redraw | keys | edge | run | draws
deriving DecidableEq, Repr

/-- A part reads the same in both states: memory through the read of one byte at every address, registers, stack slots
and pixels one by one. -/
def Same : Part → State → State → Prop
  | .params, s, t => t.params = s.params
  | .mem, s, t => ∀ a, t.readByte a = s.readByte a
  | .regs, s, t => ∀ r, t.reg r = s.reg r
  | .index, s, t => t.index = s.index
  | .pc, s, t => t.pc = s.pc
  | .stack, s, t => t.sp = s.sp ∧ ∀ j, t.slot j = s.slot j
  | .delay, s, t => t.dt = s.dt
  | .sound, s, t => t.st = s.st
  | .screen, s, t => ∀ x y, t.pixel x y = s.pixel x y
  | .redraw, s, t => t.redraw = s.redraw
  | .keys, s, t => t.key = s.key
  | .edge, s, t => t.soundEdge = s.soundEdge
  | .run, s, t => t.run = s.run
  | .draws, s, t => t.draws = s.draws

/-- Every part but those listed reads the same in both states. -/
def FrameExcept (ps : List Part) (s t : State) : Prop := ∀ p, p ∉ ps → Same p s t

/-- Every register but those listed holds the same value. -/
def RegsExcept (rs : List Reg) (s t : State) : Prop := ∀ r, r ∉ rs → t.reg r = s.reg r

/-- Every byte of memory but those listed reads the same. -/
def BytesExcept (as : List Nat) (s t : State) : Prop := ∀ a, a ∉ as → t.readByte a = s.readByte a

/-! ### What an instruction may write -/

/-- The parts an instruction may change when it executes, `run` among them where it can raise an error (R22 to R30, R54,
R93, R136, R164, R202). -/
def partsWritten : Instr → List Part
  | .cls => [.pc, .screen, .redraw]
  | .ret => [.pc, .stack, .run]
  | .call _ => [.pc, .stack, .run]
  | .jp _ | .jpV0 _ | .seVxNn _ _ | .sneVxNn _ _ | .seVxVy _ _ | .sneVxVy _ _ => [.pc]
  | .ldVxNn _ _ | .addVxNn _ _ | .ldVxVy _ _ | .or _ _ | .and _ _ | .xor _ _ | .addVxVy _ _ | .sub _ _ | .shr _ _
  | .subn _ _ | .shl _ _ | .ldVxDt _ | .ldVxK _ => [.pc, .regs]
  | .rnd _ _ => [.pc, .regs, .draws]
  | .ldINnn _ | .ldFVx _ => [.pc, .index]
  | .addIVx _ => [.pc, .regs, .index]
  | .drw _ _ _ => [.pc, .regs, .screen, .redraw, .run]
  | .skp _ | .sknp _ => [.pc, .run]
  | .ldDtVx _ => [.pc, .delay]
  | .ldStVx _ => [.pc, .sound]
  | .ldBVx _ => [.pc, .mem, .run]
  | .ldMiVx _ => [.pc, .mem, .index, .run]
  | .ldVxMi _ => [.pc, .regs, .index, .run]

/-- The general registers an instruction may write: its destination, VF as a flag, or a range (R22). -/
def regsWritten : Instr → List Reg
  | .ldVxNn x _ | .addVxNn x _ | .ldVxVy x _ | .or x _ | .and x _ | .xor x _ | .rnd x _ | .ldVxDt x | .ldVxK x => [x]
  | .addVxVy x _ | .sub x _ | .shr x _ | .subn x _ | .shl x _ => [x, VF]
  | .drw _ _ _ | .addIVx _ => [VF]
  | .ldVxMi x => regsUpTo x
  | .cls | .ret | .call _ | .jp _ | .jpV0 _ | .seVxNn _ _ | .sneVxNn _ _ | .seVxVy _ _ | .sneVxVy _ _ | .ldINnn _
  | .ldFVx _ | .skp _ | .sknp _ | .ldDtVx _ | .ldStVx _ | .ldBVx _ | .ldMiVx _ => []

/-- The addresses an instruction stores to when it completes (R54), with the meanings' own address function. -/
def bytesStored (s : State) : Instr → List Nat
  | .ldBVx _ => [s.dataAddr 0, s.dataAddr 1, s.dataAddr 2]
  | .ldMiVx x => (regsUpTo x).map fun k => s.dataAddr k.val
  | .cls | .ret | .call _ | .jp _ | .jpV0 _ | .seVxNn _ _ | .sneVxNn _ _ | .seVxVy _ _ | .sneVxVy _ _ | .ldINnn _
  | .ldFVx _ | .skp _ | .sknp _ | .ldDtVx _ | .ldStVx _ | .ldVxNn _ _ | .addVxNn _ _ | .ldVxVy _ _ | .or _ _ | .and _ _
  | .xor _ _ | .rnd _ _ | .ldVxDt _ | .ldVxK _ | .addVxVy _ _ | .sub _ _ | .shr _ _ | .subn _ _ | .shl _ _
  | .drw _ _ _ | .addIVx _ | .ldVxMi _ => []

/-! ### Sprites -/

/-- Bit `c` from the left of row `r` of the n-row sprite at I is set (R161). -/
def SpriteSet (s : State) (n : BitVec 4) (r c : Nat) : Prop :=
  r < n.toNat ∧ c < 8 ∧ (s.readByte (s.index.toNat + r)).getLsbD (7 - c) = true

/-- A set bit at column `c` and row `r` of a sprite with origin (ox, oy) has the target (px, py) (R162). -/
def Lands (pol : SpriteOobPolicy) (ox oy r c : Nat) (px : Fin 64) (py : Fin 32) : Prop :=
  match pol with
  | .clip | .reject => ox + c = px.val ∧ oy + r = py.val
  | .wrap => (ox + c) % 64 = px.val ∧ (oy + r) % 32 = py.val

/-- Some set bit of the sprite drawn by DRW x, y, n in `s` has the target (px, py). -/
def Covers (s : State) (x y : Reg) (n : BitVec 4) (px : Fin 64) (py : Fin 32) : Prop :=
  ∃ r c, SpriteSet s n r c ∧ Lands s.params.sprite (s.reg x).toNat (s.reg y).toNat r c px py

/-- Every sprite byte of DRW with n rows has a legal address (R55, R161). -/
def SpriteReadable (s : State) (n : BitVec 4) : Prop := n.toNat = 0 ∨ s.index.toNat + n.toNat - 1 ≤ 0xFFF

/-- Every set bit of the sprite is on the grid (R162). -/
def SpriteOnScreen (s : State) (x y : Reg) (n : BitVec 4) : Prop :=
  ∀ r c, SpriteSet s n r c → (s.reg x).toNat + c < 64 ∧ (s.reg y).toNat + r < 32

/-! ### Errors -/

/-- The condition of each cause for an instruction that is being executed (R202); the two causes that stop a step before
it executes an instruction never apply. -/
def CauseApplies (i : Instr) (s : State) : HaltReason → Prop
  | .unknownOpcode | .fetchOutOfRange => False
  | .stackOverflow => (∃ nnn, i = .call nnn) ∧ s.sp.val = 16
  | .stackUnderflow => i = .ret ∧ s.sp.val = 0
  | .memoryOutOfRange =>
    (∃ x y n, i = .drw x y n ∧ ¬ SpriteReadable s n) ∨ (∃ x, i = .ldBVx x ∧ s.index.toNat + 2 > 0xFFF) ∨
    (∃ x, (i = .ldMiVx x ∨ i = .ldVxMi x) ∧ s.index.toNat + x.val > 0xFFF)
  | .fontWrite => (∃ x, i = .ldBVx x ∨ i = .ldMiVx x) ∧ s.params.fontWrite = .fault ∧ s.index.toNat ≤ 0x04F
  | .spriteOutOfBounds => ∃ x y n, i = .drw x y n ∧ s.params.sprite = .reject ∧ ¬ SpriteOnScreen s x y n
  | .keyIndexOutOfRange => ∃ x, (i = .skp x ∨ i = .sknp x) ∧ (s.reg x).toNat > 0xF

/-! ### Invariant and runs -/

/-- What holds of every state of a run: memory is canonical; under the `fault` policy the font is intact (R52); pc is at
most 0x10FE (R107: the largest target any instruction forms); every occupied stack slot holds the address of a CALL that
was fetched, at most 0xFFE (R102); and a halt record names the failing address, its cause being the failed fetch exactly
when that address is above 0xFFE, with opcode 0 then (R33, R91). The spec's own decisions in it: D10 for the font (log entry
2), D9 and D19 for the bounds of pc and of the slots (log entries 8, 19), D23 and D9 for the halt record (log entries 6,
8). -/
structure Inv (s : State) : Prop where
  memWf : Memory.wf s.params s.mem
  fontIntact : s.params.fontWrite = .fault → ∀ a, a < 80 → s.readByte a = resetByte s.params a
  pcBound : s.pc.toNat ≤ 0x10FE
  slotsFetchable : ∀ j : Fin 16, j.val < s.sp.val → (s.slot j).toNat ≤ 0xFFE
  haltRecord : ∀ reason op pc0, s.run = .halted reason op pc0 →
    pc0 = s.pc ∧ (reason = .fetchOutOfRange ↔ pc0.toNat > 0xFFE) ∧ (reason = .fetchOutOfRange → op = 0)

/-- The states of a machine with the parameters `p`: after reset, after any step, after any host operation (R210, R235). -/
inductive Reachable (p : Params) : State → Prop where
  | boot : Reachable p (State.resetWith p)
  | step {s t : State} : Reachable p s → step s = .next t → Reachable p t
  | host {s : State} (op : HostOp) : Reachable p s → Reachable p (s.hostDo op)

/-- A safe run so far: the machine has met no error (R33). -/
def Safe (s : State) : Prop := s.run = .running

end Sys2Proof.Machine
end

