-- ==== Sys2Proof/Certificates/Slice0/Obligations.lean ====
section
/-!
DEFINITION. The statements about the machine that are to be proved; OBLIGATIONS.json says of each which rule or section of spec/
it rests on. A docstring names the spec's own decisions (D<n>) and the log entries a statement rests on.
-/

open Sys2Proof Sys2Proof.Machine

/-! ### Encoding -/

/-- Words written out bit by bit from the patterns of R73, one or more per family, and two words of the unknown space.
That those two do not decode is the spec's own decision D3 (log entry 17). -/
def Obligations.WrittenOutWordsDecode : Prop :=
  decodeWord 0b0000000011100000 = some .cls ∧ decodeWord 0b0000000011101110 = some .ret ∧
  decodeWord 0b0001001000110100 = some (.jp 0x234) ∧ decodeWord 0b0011001101000010 = some (.seVxNn 3 0x42) ∧
  decodeWord 0b1000000100100101 = some (.sub 1 2) ∧ decodeWord 0b1010001100000000 = some (.ldINnn 0x300) ∧
  decodeWord 0b1100001100001111 = some (.rnd 3 0x0F) ∧ decodeWord 0b1101000000010010 = some (.drw 0 1 2) ∧
  decodeWord 0b1110001010011110 = some (.skp 2) ∧ decodeWord 0b1111001001100101 = some (.ldVxMi 2) ∧
  decodeWord 0b0101000100100001 = none ∧ decodeWord 0b0000000000000000 = none

/-- Every instruction with every operand comes back from its word, from its bytes in memory order, and from its word as the
opcode table numbers it. That SHR and SHL have their unread Y as an operand is the model's choice (log entry 9). -/
def Obligations.DecodeOfEncodeIsTheInstruction : Prop :=
  ∀ i : Instr, decodeWord (encodeWord i) = some i ∧ decodeBytes (encodeBytes i) = .instr i ∧
    decodeTableWord 16 (encodeWord i).toNat = some i

/-- Every known word comes back from its instruction, the ignored Y field of 8XY6 and 8XYE with it. It holds because every
literal digit of a pattern is checked, the spec's own decision D3 (log entry 17), and because SHR and SHL keep their unread Y,
the model's choice (log entry 9). -/
def Obligations.EncodeOfDecodeIsTheWord : Prop :=
  ∀ (w : Word) (i : Instr), decodeWord w = some i → encodeWord i = w

/-- R73's "Exactly one row matches each word that is not in the unknown space", and no row matches an unknown one. The masks
rest on the spec's own decision D3 (log entry 17). -/
def Obligations.ExactlyOneRowHoldsOfAKnownWord : Prop :=
  ∀ w : Word,
    (∀ i, decodeWord w = some i → (opcodeTable.filter (·.holds w)).map (·.mnemonic) = [i.mnemonic]) ∧
    (decodeWord w = none → opcodeTable.filter (·.holds w) = [])

/-- The unknown space is the table of R75, family by family. It rests on the spec's own decision D3 (log entry 17). -/
def Obligations.UnknownSpaceIsTheTable : Prop :=
  ∀ w : Word, decodeWord w = none ↔
    (w.toNat / 4096 = 0x0 ∧ w.toNat ≠ 0x00E0 ∧ w.toNat ≠ 0x00EE) ∨
    (w.toNat / 4096 = 0x5 ∧ w.toNat % 16 ≠ 0) ∨
    (w.toNat / 4096 = 0x8 ∧ w.toNat % 16 ∈ [0x8, 0x9, 0xA, 0xB, 0xC, 0xD, 0xF]) ∨
    (w.toNat / 4096 = 0x9 ∧ w.toNat % 16 ≠ 0) ∨
    (w.toNat / 4096 = 0xE ∧ w.toNat % 256 ∉ [0x9E, 0xA1]) ∨
    (w.toNat / 4096 = 0xF ∧ w.toNat % 256 ∉ [0x07, 0x0A, 0x15, 0x18, 0x1E, 0x29, 0x33, 0x55, 0x65])

/-- Every instruction's word as a number, operand by operand: the patterns of R73 with X at 0x100, Y at 0x10, and NNN, NN
or N at 1. -/
def Obligations.EncodingsAreThePatterns : Prop :=
  ∀ (x y : Reg) (n : BitVec 4) (nn : Byte) (nnn : BitVec 12),
    (encodeWord .cls).toNat = 0x00E0 ∧ (encodeWord .ret).toNat = 0x00EE ∧
    (encodeWord (.jp nnn)).toNat = 0x1000 + nnn.toNat ∧ (encodeWord (.call nnn)).toNat = 0x2000 + nnn.toNat ∧
    (encodeWord (.seVxNn x nn)).toNat = 0x3000 + x.val * 0x100 + nn.toNat ∧
    (encodeWord (.sneVxNn x nn)).toNat = 0x4000 + x.val * 0x100 + nn.toNat ∧
    (encodeWord (.seVxVy x y)).toNat = 0x5000 + x.val * 0x100 + y.val * 0x10 ∧
    (encodeWord (.ldVxNn x nn)).toNat = 0x6000 + x.val * 0x100 + nn.toNat ∧
    (encodeWord (.addVxNn x nn)).toNat = 0x7000 + x.val * 0x100 + nn.toNat ∧
    (encodeWord (.ldVxVy x y)).toNat = 0x8000 + x.val * 0x100 + y.val * 0x10 ∧
    (encodeWord (.or x y)).toNat = 0x8001 + x.val * 0x100 + y.val * 0x10 ∧
    (encodeWord (.and x y)).toNat = 0x8002 + x.val * 0x100 + y.val * 0x10 ∧
    (encodeWord (.xor x y)).toNat = 0x8003 + x.val * 0x100 + y.val * 0x10 ∧
    (encodeWord (.addVxVy x y)).toNat = 0x8004 + x.val * 0x100 + y.val * 0x10 ∧
    (encodeWord (.sub x y)).toNat = 0x8005 + x.val * 0x100 + y.val * 0x10 ∧
    (encodeWord (.shr x y)).toNat = 0x8006 + x.val * 0x100 + y.val * 0x10 ∧
    (encodeWord (.subn x y)).toNat = 0x8007 + x.val * 0x100 + y.val * 0x10 ∧
    (encodeWord (.shl x y)).toNat = 0x800E + x.val * 0x100 + y.val * 0x10 ∧
    (encodeWord (.sneVxVy x y)).toNat = 0x9000 + x.val * 0x100 + y.val * 0x10 ∧
    (encodeWord (.ldINnn nnn)).toNat = 0xA000 + nnn.toNat ∧ (encodeWord (.jpV0 nnn)).toNat = 0xB000 + nnn.toNat ∧
    (encodeWord (.rnd x nn)).toNat = 0xC000 + x.val * 0x100 + nn.toNat ∧
    (encodeWord (.drw x y n)).toNat = 0xD000 + x.val * 0x100 + y.val * 0x10 + n.toNat ∧
    (encodeWord (.skp x)).toNat = 0xE09E + x.val * 0x100 ∧ (encodeWord (.sknp x)).toNat = 0xE0A1 + x.val * 0x100 ∧
    (encodeWord (.ldVxDt x)).toNat = 0xF007 + x.val * 0x100 ∧ (encodeWord (.ldVxK x)).toNat = 0xF00A + x.val * 0x100 ∧
    (encodeWord (.ldDtVx x)).toNat = 0xF015 + x.val * 0x100 ∧ (encodeWord (.ldStVx x)).toNat = 0xF018 + x.val * 0x100 ∧
    (encodeWord (.addIVx x)).toNat = 0xF01E + x.val * 0x100 ∧ (encodeWord (.ldFVx x)).toNat = 0xF029 + x.val * 0x100 ∧
    (encodeWord (.ldBVx x)).toNat = 0xF033 + x.val * 0x100 ∧ (encodeWord (.ldMiVx x)).toNat = 0xF055 + x.val * 0x100 ∧
    (encodeWord (.ldVxMi x)).toNat = 0xF065 + x.val * 0x100

/-- R71: the six fields by the source's formulas. -/
def Obligations.FieldsAreCutByTheFormulas : Prop :=
  ∀ w : Word,
    (famField w).toNat = w.toNat >>> 12 ∧ (xField w).val = (w.toNat >>> 8) &&& 0xF ∧
    (yField w).val = (w.toNat >>> 4) &&& 0xF ∧ (nField w).toNat = w.toNat &&& 0x000F ∧
    (nnField w).toNat = w.toNat &&& 0x00FF ∧ (nnnField w).toNat = w.toNat &&& 0x0FFF

/-! ### The step -/

/-- A running machine whose two bytes at pc decode to `i` does what `exec i` does; if the instruction completed, the timer
tick follows, and if it raised, nothing does (R90; that no tick follows an error is the spec's own decision D5, log entry
5). -/
def Obligations.StepRunsTheDecodedInstruction : Prop :=
  ∀ (s : State) (i : Instr), s.run = .running → s.pc.toNat ≤ 0xFFE →
    decodeBytes [s.readByte s.pc.toNat, s.readByte (s.pc.toNat + 1)] = .instr i →
    ∃ t, exec i s = .next t ∧ (t.run = .running → step s = .next t.tick) ∧ (t.run ≠ .running → step s = .next t)

/-- The word fetched is big-endian, at any pc up to 0xFFE, odd or even; beyond it there is none (R57, R91; the bound is the
spec's own decision D9, log entry 8). -/
def Obligations.FetchIsBigEndian : Prop :=
  ∀ s : State,
    (s.pc.toNat ≤ 0xFFE → ∃ w, s.fetch = some w ∧
      w.toNat = (s.readByte s.pc.toNat).toNat * 256 + (s.readByte (s.pc.toNat + 1)).toNat) ∧
    (s.pc.toNat > 0xFFE → s.fetch = none)

/-- A step with pc > 0xFFE enters Halted with opcode 0 and changes nothing else (R91, R201; the spec's own decisions D5, D9,
D23, log entries 5, 6, 8). -/
def Obligations.FetchBeyondMemoryHalts : Prop :=
  ∀ s : State, s.run = .running → s.pc.toNat > 0xFFE →
    ∃ t, step s = .next t ∧ t.run = .halted .fetchOutOfRange 0 s.pc ∧ FrameExcept [.run] s t

/-- A word of the unknown space halts the machine with the word recorded and nothing else changed, the steps after it are
no-ops, no host operation but reset ends that, and reset does (R203). That the failing step ticks no timer is the spec's
own decision D5 (log entry 5), which words are unknown D3 (log entry 17), the record's content D23 (log entry 6), that
reset alone ends the halt D4 (log entry 5), and that the host may act while halted D26 (log entry 14). -/
def Obligations.UnknownOpcodeHalts : Prop :=
  ∀ (s : State) (op : Word), s.run = .running → s.fetch = some op → decodeWord op = none →
    ∃ t a, step s = .next t ∧ t.run = .halted .unknownOpcode op a ∧ FrameExcept [.run] s t ∧
      (∀ k, Host.Core.run Sys2Proof.core k t = .next t) ∧
      (∀ h, h ≠ .reset → (t.hostDo h).run = t.run) ∧ (t.hostDo .reset).run = .running

/-- R96: a step taken while halted changes no state at all, and so any number of them. -/
def Obligations.HaltedStepsAreNoOps : Prop :=
  ∀ (s : State) (reason : HaltReason) (op a : Word), s.run = .halted reason op a →
    ∀ k, Host.Core.run Sys2Proof.core k s = .next s

/-- No step of any state stops: it answers a next state, Running or Halted. That a stack overflow or underflow is an error
too is the spec's own decision D6 (log entry 5). -/
def Obligations.StepAlwaysAnswersANextState : Prop := ∀ s : State, ∃ t, step s = .next t

/-- A step that meets an error changes `run` and nothing else; the record holds the word fetched (0 when none could be) and
its address. The rule is the spec's own (R201: decisions D5, D23; log entries 5, 6). -/
def Obligations.FailingStepChangesOnlyRun : Prop :=
  ∀ s t : State, s.run = .running → step s = .next t → t.run ≠ .running →
    ∃ reason op, t = { s with run := .halted reason op s.pc } ∧
      (s.fetch = some op ∨ (s.fetch = none ∧ reason = .fetchOutOfRange ∧ op = 0))

/-- An instruction raises exactly when a cause of R202 applies to it, records that cause, its word and its address, and
reports the memory check before the sprite check (R205). The causes and their order are the spec's own decisions (D6, D8,
D10, D11, D13, D16, D22; log entries 5, 8, 11, 12, 18). -/
def Obligations.CausesAreTheTableOfErrors : Prop :=
  ∀ (i : Instr) (s : State), s.run = .running → ∃ t, exec i s = .next t ∧
    (t.run = .running ↔ ∀ reason, ¬ CauseApplies i s reason) ∧
    (∀ reason op a, t.run = .halted reason op a → CauseApplies i s reason ∧ op = encodeWord i ∧ a = s.pc) ∧
    (CauseApplies i s .memoryOutOfRange → t.run = .halted .memoryOutOfRange (encodeWord i) s.pc)

/-- What every instruction leaves alone: every part it may not write, every register that is no destination of it, every
byte of memory outside the bytes it stores. -/
def Obligations.EveryInstructionKeepsItsFrame : Prop :=
  ∀ (i : Instr) (s t : State), exec i s = .next t →
    FrameExcept (partsWritten i) s t ∧ RegsExcept (regsWritten i) s t ∧ BytesExcept (bytesStored s i) s t

/-! ### Invariant, reset, host -/

/-- Every step keeps the invariant, from every state that meets it. The invariant speaks of the spec's own decisions: the
halt record of D23 and the fetch bound of D9 (log entries 6, 8), the font policy of D10 (log entry 2), and the pc bound of
D9 and D19 (log entries 8, 19). -/
def Obligations.StepKeepsTheInvariant : Prop := ∀ s t : State, Inv s → step s = .next t → Inv t

/-- Reset meets the invariant, whatever the parameters (for the decisions in it see StepKeepsTheInvariant). -/
def Obligations.ResetMeetsTheInvariant : Prop := ∀ p : Params, Inv (State.resetWith p)

/-- Every host operation keeps the invariant and the parameters, in every state and at any time, which is the spec's own
decision (D21, D26; log entry 14). The invariant rests on D9, D10, D19 and D23 (log entries 2, 6, 8, 19). -/
def Obligations.HostOperationsKeepTheInvariant : Prop :=
  ∀ (s : State) (op : HostOp), Inv s → Inv (s.hostDo op) ∧ (s.hostDo op).params = s.params

/-- Every state of every run of a machine and its host meets the invariant and has the machine's parameters. That the host
may load and act at any time is the spec's own decision (D21, D26; log entry 14); the invariant rests on its decisions D9,
D10, D19 and D23 (log entries 2, 6, 8, 19). -/
def Obligations.ReachableStatesMeetTheInvariant : Prop :=
  ∀ (p : Params) (s : State), Reachable p s → Inv s ∧ s.params = p

/-- Under the `fault` policy no step changes a byte of 0x000..0x04F (R52; the policy and its default are the spec's own
decision D10, log entry 2). -/
def Obligations.FontRegionIsNeverWritten : Prop :=
  ∀ (s t : State) (a : Nat), s.params.fontWrite = .fault → step s = .next t → a ≤ 0x04F → t.readByte a = s.readByte a

/-- R36: the value of every element after reset. -/
def Obligations.ResetGivesTheTable : Prop :=
  ∀ p : Params,
    (∀ a (h : a < 80), (State.resetWith p).readByte a = p.fontset[a]) ∧
    (∀ a, 0x050 ≤ a → (State.resetWith p).readByte a = 0) ∧
    (∀ r, (State.resetWith p).reg r = 0) ∧ (State.resetWith p).index = 0 ∧ (State.resetWith p).pc.toNat = 0x200 ∧
    (∀ j, (State.resetWith p).slot j = 0) ∧ (State.resetWith p).sp.val = 0 ∧
    (State.resetWith p).dt = 0 ∧ (State.resetWith p).st = 0 ∧
    (∀ x y, (State.resetWith p).pixel x y = false) ∧ (State.resetWith p).redraw = false ∧
    (∀ k : Fin 16, (State.resetWith p).key[k.val] = false) ∧ (State.resetWith p).soundEdge = false ∧
    (State.resetWith p).run = .running

/-- Reset from any state gives the reset value of every element (the draw counter is no element, log entry 4), leaves the
parameters, and is the only way out of Halted (R230). That reset alone leaves Halted is the spec's own decision D4 (R33,
R207, C1; log entry 5), and that the other host operations act while halted is D26 (log entry 14). -/
def Obligations.ResetFromAnyState : Prop :=
  ∀ s : State,
    FrameExcept [.draws] (State.resetWith s.params) s.hostReset ∧ s.hostReset.params = s.params ∧
    (∀ t, s.run ≠ .running → step s = .next t → t.run = s.run) ∧
    (∀ op, op ≠ .reset → (s.hostDo op).run = s.run)

/-- R232: a load that fits copies the bytes to 0x200 and changes nothing else; one that does not fit fails and changes
nothing. -/
def Obligations.LoadCopiesOrFails : Prop :=
  ∀ (s : State) (bytes : List Byte),
    (bytes.length > 3584 → s.load bytes = none ∧ s.hostDo (.load bytes) = s) ∧
    (bytes.length ≤ 3584 → ∃ t, s.load bytes = some t ∧
      (∀ i (h : i < bytes.length), t.readByte (0x200 + i) = bytes[i]) ∧
      (∀ a, a < 0x200 ∨ 0x200 + bytes.length ≤ a → t.readByte a = s.readByte a) ∧ FrameExcept [.mem] s t)

/-- R212: each clear writes its flag and nothing else, and no step clears either flag. -/
def Obligations.OnlyTheHostClearsFlags : Prop :=
  ∀ s : State,
    (s.clearRedraw.redraw = false ∧ FrameExcept [.redraw] s s.clearRedraw) ∧
    (s.clearSoundEdge.soundEdge = false ∧ FrameExcept [.edge] s s.clearSoundEdge) ∧
    (∀ t, step s = .next t → (s.redraw = true → t.redraw = true) ∧ (s.soundEdge = true → t.soundEdge = true))

/-- A key write sets one key and nothing else, and no step changes a key (R31, R211). -/
def Obligations.OnlyTheHostWritesKeys : Prop :=
  ∀ (s : State) (k : Fin 16) (b : Bool),
    (∀ j : Fin 16, (s.setKey k b).key[j.val] = if j = k then b else s.key[j.val]) ∧
    FrameExcept [.keys] s (s.setKey k b) ∧ (∀ t, step s = .next t → t.key = s.key)

/-- A step whose instruction completed counts DT down by one and stops at 0; a step that raises, and a step while halted,
leaves DT (R170). That a step that raises does not tick is the spec's own decision D5 (log entry 5). -/
def Obligations.DelayTimerTicks : Prop :=
  ∀ s t : State, step s = .next t →
    (∀ op i u, s.run = .running → s.fetch = some op → decodeWord op = some i → exec i s = .next u → u.run = .running →
      t.dt.toNat = u.dt.toNat - 1) ∧
    (t.run ≠ .running → t.dt = s.dt)

/-- The same for ST, and the edge is raised exactly when the tick sees ST = 1 (R171; the spec's own decision D24, log entry
21); a step that does not tick leaves ST and raises no edge, and that a step that raises does not tick is the spec's own
decision D5 (log entry 5). -/
def Obligations.SoundTimerTicksAndRaisesTheEdge : Prop :=
  ∀ s t : State, step s = .next t →
    (∀ op i u, s.run = .running → s.fetch = some op → decodeWord op = some i → exec i s = .next u → u.run = .running →
      t.st.toNat = u.st.toNat - 1 ∧ (t.soundEdge = true ↔ s.soundEdge = true ∨ u.st.toNat = 1) ∧
      FrameExcept [.delay, .sound, .edge] u t) ∧
    (t.run ≠ .running → t.st = s.st ∧ t.soundEdge = s.soundEdge)

/-- R178: a timer written in a step is ticked in that same step, an FX18 of 1 raises the edge in it, and FX07 reads DT before
the tick (derived by the spec from R170 to R174). That the edge is raised by the tick alone, so that an FX18 of 0 over 1
raises none, is the spec's own decision D24 (log entry 21). -/
def Obligations.TimerWriteIsTickedInItsOwnStep : Prop :=
  ∀ (s : State) (op : Word) (x : Reg), s.run = .running → s.fetch = some op →
    (decodeWord op = some (.ldDtVx x) → ∃ t, step s = .next t ∧ t.dt.toNat = (s.reg x).toNat - 1) ∧
    (decodeWord op = some (.ldStVx x) → ∃ t, step s = .next t ∧ t.st.toNat = (s.reg x).toNat - 1 ∧
      (t.soundEdge = true ↔ s.soundEdge = true ∨ (s.reg x).toNat = 1)) ∧
    (decodeWord op = some (.ldVxDt x) → ∃ t, step s = .next t ∧ t.reg x = s.dt ∧ t.dt.toNat = s.dt.toNat - 1)

/-! ### Control flow -/

/-- R100. -/
def Obligations.JumpSetsPc : Prop :=
  ∀ (nnn : BitVec 12) (s : State), ∃ t, exec (.jp nnn) s = .next t ∧ t.pc.toNat = nnn.toNat ∧ FrameExcept [.pc] s t

/-- R101: CALL saves its own address and jumps; with 16 entries it halts and writes nothing (the spec's own decision D6, log
entry 5). -/
def Obligations.CallPushesItsOwnAddress : Prop :=
  ∀ (nnn : BitVec 12) (s : State),
    (s.sp.val < 16 → ∃ t, exec (.call nnn) s = .next t ∧ t.pc.toNat = nnn.toNat ∧ t.sp.val = s.sp.val + 1 ∧
      (∀ j : Fin 16, t.slot j = if j.val = s.sp.val then s.pc else s.slot j) ∧ FrameExcept [.pc, .stack] s t) ∧
    (s.sp.val = 16 → ∃ t, exec (.call nnn) s = .next t ∧
      t.run = .halted .stackOverflow (encodeWord (.call nnn)) s.pc ∧ FrameExcept [.run] s t)

/-- R102: RET takes the top address plus 2 (mod 65536) and leaves the slot's value; with no entry it halts and writes nothing
(the spec's own decisions D6, D25, log entries 5, 20). -/
def Obligations.ReturnPopsAndAddsTwo : Prop :=
  ∀ s : State,
    (∀ j : Fin 16, s.sp.val = j.val + 1 → ∃ t, exec .ret s = .next t ∧ t.pc.toNat = ((s.slot j).toNat + 2) % 65536 ∧
      t.sp.val = j.val ∧ (∀ k, t.slot k = s.slot k) ∧ FrameExcept [.pc, .stack] s t) ∧
    (s.sp.val = 0 → ∃ t, exec .ret s = .next t ∧
      t.run = .halted .stackUnderflow (encodeWord .ret) s.pc ∧ FrameExcept [.run] s t)

/-- A call and the return that meets its stack entry resume after the call with the stack pointer restored, whatever ran
between them (R101, R102, and the source's example S6). That the popped slot keeps its value is the spec's own decision D25
(log entry 20). -/
def Obligations.ReturnResumesAfterTheCall : Prop :=
  ∀ (nnn : BitVec 12) (s t u : State), s.sp.val < 16 → exec (.call nnn) s = .next t →
    u.sp = t.sp → u.slot (Fin.ofNat 16 s.sp.val) = t.slot (Fin.ofNat 16 s.sp.val) →
    ∃ v, exec .ret u = .next v ∧ v.pc = s.pc + 2 ∧ v.sp = s.sp ∧ (∀ j, v.slot j = u.slot j) ∧
      FrameExcept [.pc, .stack] u v

/-- R103, R104. -/
def Obligations.SkipsCompareWithAByte : Prop :=
  ∀ (x : Reg) (nn : Byte) (s : State),
    (encodeWord (.seVxNn x nn)).toNat = 0x3000 + x.val * 0x100 + nn.toNat ∧
    (encodeWord (.sneVxNn x nn)).toNat = 0x4000 + x.val * 0x100 + nn.toNat ∧
    (∃ t, exec (.seVxNn x nn) s = .next t ∧
      t.pc.toNat = (s.pc.toNat + if (s.reg x).toNat = nn.toNat then 4 else 2) % 65536 ∧ FrameExcept [.pc] s t) ∧
    (∃ t, exec (.sneVxNn x nn) s = .next t ∧
      t.pc.toNat = (s.pc.toNat + if (s.reg x).toNat ≠ nn.toNat then 4 else 2) % 65536 ∧ FrameExcept [.pc] s t)

/-- The skips of R105 and R106. That a word of their families with another low nibble does not decode is the spec's own
decision D3 (log entry 17). -/
def Obligations.SkipsCompareRegisters : Prop :=
  ∀ (x y : Reg) (s : State),
    (encodeWord (.seVxVy x y)).toNat = 0x5000 + x.val * 0x100 + y.val * 0x10 ∧
    (encodeWord (.sneVxVy x y)).toNat = 0x9000 + x.val * 0x100 + y.val * 0x10 ∧
    (∀ w : Word, (w.toNat / 4096 = 0x5 ∨ w.toNat / 4096 = 0x9) → w.toNat % 16 ≠ 0 → decodeWord w = none) ∧
    (∃ t, exec (.seVxVy x y) s = .next t ∧
      t.pc.toNat = (s.pc.toNat + if (s.reg x).toNat = (s.reg y).toNat then 4 else 2) % 65536 ∧ FrameExcept [.pc] s t) ∧
    (∃ t, exec (.sneVxVy x y) s = .next t ∧
      t.pc.toNat = (s.pc.toNat + if (s.reg x).toNat ≠ (s.reg y).toNat then 4 else 2) % 65536 ∧ FrameExcept [.pc] s t)

/-- R107: the exact sum, not masked to 12 bits (the spec's own decision D19, log entry 19). -/
def Obligations.JumpPlusV0 : Prop :=
  ∀ (nnn : BitVec 12) (s : State), ∃ t, exec (.jpV0 nnn) s = .next t ∧
    t.pc.toNat = nnn.toNat + (s.reg 0).toNat ∧ FrameExcept [.pc] s t

/-! ### Loads, logic, arithmetic, random -/

/-- R120, R122. -/
def Obligations.LoadsAByteOrARegister : Prop :=
  ∀ (x y : Reg) (nn : Byte) (s : State),
    (encodeWord (.ldVxNn x nn)).toNat = 0x6000 + x.val * 0x100 + nn.toNat ∧
    (encodeWord (.ldVxVy x y)).toNat = 0x8000 + x.val * 0x100 + y.val * 0x10 ∧
    (∃ t, exec (.ldVxNn x nn) s = .next t ∧ t.reg x = nn ∧ t.pc.toNat = (s.pc.toNat + 2) % 65536 ∧
      RegsExcept [x] s t ∧ FrameExcept [.pc, .regs] s t) ∧
    (∃ t, exec (.ldVxVy x y) s = .next t ∧ t.reg x = s.reg y ∧ t.pc.toNat = (s.pc.toNat + 2) % 65536 ∧
      RegsExcept [x] s t ∧ FrameExcept [.pc, .regs] s t)

/-- R121: VF is among the registers unchanged, unless it is the destination. -/
def Obligations.AddByteWrapsWithoutFlag : Prop :=
  ∀ (x : Reg) (nn : Byte) (s : State),
    (encodeWord (.addVxNn x nn)).toNat = 0x7000 + x.val * 0x100 + nn.toNat ∧ ∃ t, exec (.addVxNn x nn) s = .next t ∧
    (t.reg x).toNat = ((s.reg x).toNat + nn.toNat) % 256 ∧ t.pc.toNat = (s.pc.toNat + 2) % 65536 ∧
    RegsExcept [x] s t ∧ FrameExcept [.pc, .regs] s t

/-- R123, R124, R125: bit by bit, and VF is not reset. -/
def Obligations.LogicIsBitwise : Prop :=
  ∀ (x y : Reg) (s : State),
    (encodeWord (.or x y)).toNat = 0x8001 + x.val * 0x100 + y.val * 0x10 ∧
    (encodeWord (.and x y)).toNat = 0x8002 + x.val * 0x100 + y.val * 0x10 ∧
    (encodeWord (.xor x y)).toNat = 0x8003 + x.val * 0x100 + y.val * 0x10 ∧
    (∃ t, exec (.or x y) s = .next t ∧ (t.reg x).toNat = (s.reg x).toNat ||| (s.reg y).toNat ∧
      t.pc.toNat = (s.pc.toNat + 2) % 65536 ∧ RegsExcept [x] s t ∧ FrameExcept [.pc, .regs] s t) ∧
    (∃ t, exec (.and x y) s = .next t ∧ (t.reg x).toNat = (s.reg x).toNat &&& (s.reg y).toNat ∧
      t.pc.toNat = (s.pc.toNat + 2) % 65536 ∧ RegsExcept [x] s t ∧ FrameExcept [.pc, .regs] s t) ∧
    (∃ t, exec (.xor x y) s = .next t ∧ (t.reg x).toNat = (s.reg x).toNat ^^^ (s.reg y).toNat ∧
      t.pc.toNat = (s.pc.toNat + 2) % 65536 ∧ RegsExcept [x] s t ∧ FrameExcept [.pc, .regs] s t)

/-- R126, every form: V[x] ends as the sum mod 256, VF as the carry unless VF is the destination. That the destination is
written last, which decides x = 0xF, is the spec's own reading R11 (D2, log entry 10). -/
def Obligations.AddSetsCarry : Prop :=
  ∀ (x y : Reg) (s : State), ∃ t, exec (.addVxVy x y) s = .next t ∧
    (t.reg x).toNat = ((s.reg x).toNat + (s.reg y).toNat) % 256 ∧
    (x ≠ VF → (t.reg VF).toNat = if (s.reg x).toNat + (s.reg y).toNat > 255 then 1 else 0) ∧
    t.pc.toNat = (s.pc.toNat + 2) % 65536 ∧ RegsExcept [x, VF] s t ∧ FrameExcept [.pc, .regs] s t

/-- R127, R129, every form: the flag is the not-borrow of the registers before; the difference is taken of the registers
after the flag is written, which differs only where x or y is VF. That order is the spec's own reading R11 (D2, log entry
10). -/
def Obligations.SubtractionsSetNotBorrow : Prop :=
  ∀ (x y : Reg) (s : State),
    (∃ t f, exec (.sub x y) s = .next t ∧ f = (if (s.reg x).toNat < (s.reg y).toNat then 0 else 1) ∧
      (t.reg x).toNat = ((if x = VF then f else (s.reg x).toNat) + 256 - (if y = VF then f else (s.reg y).toNat)) % 256 ∧
      (x ≠ VF → (t.reg VF).toNat = f) ∧
      t.pc.toNat = (s.pc.toNat + 2) % 65536 ∧ RegsExcept [x, VF] s t ∧ FrameExcept [.pc, .regs] s t) ∧
    (∃ t f, exec (.subn x y) s = .next t ∧ f = (if (s.reg y).toNat < (s.reg x).toNat then 0 else 1) ∧
      (t.reg x).toNat = ((if y = VF then f else (s.reg y).toNat) + 256 - (if x = VF then f else (s.reg x).toNat)) % 256 ∧
      (x ≠ VF → (t.reg VF).toNat = f) ∧
      t.pc.toNat = (s.pc.toNat + 2) % 65536 ∧ RegsExcept [x, VF] s t ∧ FrameExcept [.pc, .regs] s t)

/-- R128, R130, every form: by one bit, the bit shifted out into VF, V[y] neither read nor written; where x is VF the shift is
of the flag just written. That order is the spec's own reading R11 (D2, log entry 10). -/
def Obligations.ShiftsByOneBit : Prop :=
  ∀ (x y : Reg) (s : State),
    (∃ t, exec (.shr x y) s = .next t ∧
      (t.reg x).toNat = (if x = VF then 0 else (s.reg x).toNat / 2) ∧
      (x ≠ VF → (t.reg VF).toNat = (s.reg x).toNat % 2) ∧
      t.pc.toNat = (s.pc.toNat + 2) % 65536 ∧ RegsExcept [x, VF] s t ∧ FrameExcept [.pc, .regs] s t) ∧
    (∃ t, exec (.shl x y) s = .next t ∧
      (t.reg x).toNat = (if x = VF then (s.reg x).toNat / 128 * 2 else (s.reg x).toNat * 2 % 256) ∧
      (x ≠ VF → (t.reg VF).toNat = (s.reg x).toNat / 128) ∧
      t.pc.toNat = (s.pc.toNat + 2) % 65536 ∧ RegsExcept [x, VF] s t ∧ FrameExcept [.pc, .regs] s t)

/-- R136: V[x] is some byte in 0..RANDOM_MAX, masked; which byte is a free value, of which nothing is said (the range is the
spec's own decision D12, log entry 3). -/
def Obligations.RandomByteIsMasked : Prop :=
  ∀ (x : Reg) (nn : Byte) (s : State), ∃ t r, exec (.rnd x nn) s = .next t ∧ r ≤ s.params.randomMax.toNat ∧
    (t.reg x).toNat = r &&& nn.toNat ∧ t.draws = s.draws + 1 ∧ t.pc.toNat = (s.pc.toNat + 2) % 65536 ∧
    RegsExcept [x] s t ∧ FrameExcept [.pc, .regs, .draws] s t

/-! ### Index register and memory transfers -/

/-- R140. -/
def Obligations.LoadIndexLiteral : Prop :=
  ∀ (nnn : BitVec 12) (s : State), (encodeWord (.ldINnn nnn)).toNat = 0xA000 + nnn.toNat ∧
    ∃ t, exec (.ldINnn nnn) s = .next t ∧ t.index.toNat = nnn.toNat ∧
    t.pc.toNat = (s.pc.toNat + 2) % 65536 ∧ FrameExcept [.pc, .index] s t

/-- R141, every form: VF is the overflow past 0xFFF, then I grows by V[x] as the flag write left it, mod 65536 (the order is
R11, the width D19, both the spec's own; log entries 10, 19). -/
def Obligations.AddToIndexFlagsOverflow : Prop :=
  ∀ (x : Reg) (s : State), ∃ t f, exec (.addIVx x) s = .next t ∧
    f = (if s.index.toNat + (s.reg x).toNat > 0xFFF then 1 else 0) ∧ (t.reg VF).toNat = f ∧
    t.index.toNat = (s.index.toNat + if x = VF then f else (s.reg x).toNat) % 65536 ∧
    t.pc.toNat = (s.pc.toNat + 2) % 65536 ∧ RegsExcept [VF] s t ∧ FrameExcept [.pc, .regs, .index] s t

/-- R142: five times V[x], not masked to a nibble (the spec's own decision D19, log entry 19). -/
def Obligations.FontGlyphAddress : Prop :=
  ∀ (x : Reg) (s : State), ∃ t, exec (.ldFVx x) s = .next t ∧ t.index.toNat = (s.reg x).toNat * 5 ∧
    t.pc.toNat = (s.pc.toNat + 2) % 65536 ∧ FrameExcept [.pc, .index] s t

/-- R143: the three digits at I, I+1, I+2, and where it halts instead (the spec's own decisions D8, D10, log entries 2, 8). -/
def Obligations.BcdStore : Prop :=
  ∀ (x : Reg) (s : State),
    (s.index.toNat + 2 ≤ 0xFFF → (s.params.fontWrite = .write ∨ 0x04F < s.index.toNat) →
      ∃ t, exec (.ldBVx x) s = .next t ∧
        (t.readByte (s.dataAddr 0)).toNat = (s.reg x).toNat / 100 ∧
        (t.readByte (s.dataAddr 1)).toNat = (s.reg x).toNat / 10 % 10 ∧
        (t.readByte (s.dataAddr 2)).toNat = (s.reg x).toNat % 10 ∧
        t.pc.toNat = (s.pc.toNat + 2) % 65536 ∧
        BytesExcept [s.dataAddr 0, s.dataAddr 1, s.dataAddr 2] s t ∧ FrameExcept [.pc, .mem] s t) ∧
    (s.index.toNat + 2 > 0xFFF → ∃ t, exec (.ldBVx x) s = .next t ∧
      t.run = .halted .memoryOutOfRange (encodeWord (.ldBVx x)) s.pc ∧ FrameExcept [.run] s t) ∧
    (s.index.toNat ≤ 0x04F → s.params.fontWrite = .fault → ∃ t, exec (.ldBVx x) s = .next t ∧
      t.run = .halted .fontWrite (encodeWord (.ldBVx x)) s.pc ∧ FrameExcept [.run] s t)

/-- R144: V0..VX at I..I+X, I past them, and where it halts instead (the spec's own decisions D8, D10, log entries 2, 8). -/
def Obligations.RegisterStore : Prop :=
  ∀ (x : Reg) (s : State),
    (s.index.toNat + x.val ≤ 0xFFF → (s.params.fontWrite = .write ∨ 0x04F < s.index.toNat) →
      ∃ t, exec (.ldMiVx x) s = .next t ∧
        (∀ k : Reg, k.val ≤ x.val → t.readByte (s.dataAddr k.val) = s.reg k) ∧
        (∀ a, (∀ k : Reg, k.val ≤ x.val → a ≠ s.dataAddr k.val) → t.readByte a = s.readByte a) ∧
        t.index.toNat = s.index.toNat + x.val + 1 ∧ t.pc.toNat = (s.pc.toNat + 2) % 65536 ∧
        FrameExcept [.pc, .mem, .index] s t) ∧
    (s.index.toNat + x.val > 0xFFF → ∃ t, exec (.ldMiVx x) s = .next t ∧
      t.run = .halted .memoryOutOfRange (encodeWord (.ldMiVx x)) s.pc ∧ FrameExcept [.run] s t) ∧
    (s.index.toNat ≤ 0x04F → s.params.fontWrite = .fault → ∃ t, exec (.ldMiVx x) s = .next t ∧
      t.run = .halted .fontWrite (encodeWord (.ldMiVx x)) s.pc ∧ FrameExcept [.run] s t)

/-- R145: V0..VX from I..I+X, I past them, and where it halts instead (the spec's own decision D8, log entry 8). -/
def Obligations.RegisterLoad : Prop :=
  ∀ (x : Reg) (s : State),
    (s.index.toNat + x.val ≤ 0xFFF → ∃ t, exec (.ldVxMi x) s = .next t ∧
      (∀ k : Reg, t.reg k = if k.val ≤ x.val then s.readByte (s.dataAddr k.val) else s.reg k) ∧
      t.index.toNat = s.index.toNat + x.val + 1 ∧ t.pc.toNat = (s.pc.toNat + 2) % 65536 ∧
      FrameExcept [.pc, .regs, .index] s t) ∧
    (s.index.toNat + x.val > 0xFFF → ∃ t, exec (.ldVxMi x) s = .next t ∧
      t.run = .halted .memoryOutOfRange (encodeWord (.ldVxMi x)) s.pc ∧ FrameExcept [.run] s t)

/-- "a load after FX55 of the same range restores the same values" (R145), whatever the registers hold by then. -/
def Obligations.LoadAfterStoreRestores : Prop :=
  ∀ (x : Reg) (s t u : State), s.index.toNat + x.val ≤ 0xFFF →
    (s.params.fontWrite = .write ∨ 0x04F < s.index.toNat) → exec (.ldMiVx x) s = .next t →
    Same .params t u → Same .mem t u → u.index = s.index →
    ∃ w, exec (.ldVxMi x) u = .next w ∧ (∀ k : Reg, k.val ≤ x.val → w.reg k = s.reg k) ∧
      (∀ k : Reg, x.val < k.val → w.reg k = u.reg k)

/-- A program may modify its own code: the word that FX55 stores at I is the word the next fetch at I reads (R62). -/
def Obligations.StoredWordIsFetched : Prop :=
  ∀ (x : Reg) (s t : State), 1 ≤ x.val → s.index.toNat + x.val ≤ 0xFFF →
    (s.params.fontWrite = .write ∨ 0x04F < s.index.toNat) → exec (.ldMiVx x) s = .next t →
    ∃ w, (t.setPc s.index).fetch = some w ∧ w.toNat = (s.reg 0).toNat * 256 + (s.reg 1).toNat

/-! ### Graphics -/

/-- R160. -/
def Obligations.ClearScreen : Prop :=
  ∀ s : State, encodeWord .cls = 0x00E0 ∧ ∃ t, exec .cls s = .next t ∧ (∀ px py, t.pixel px py = false) ∧ t.redraw = true ∧
    t.pc.toNat = (s.pc.toNat + 2) % 65536 ∧ FrameExcept [.pc, .screen, .redraw] s t

/-- R161, R162, under every policy: the pixels the sprite covers are inverted and no other; VF is 1 exactly when a covered
pixel was on; the redraw flag is set; I and every other register are unchanged. The policies are the spec's own decision
(D11, log entry 12), the address bound D8 (log entry 8). -/
def Obligations.DrawInvertsTheCoveredPixels : Prop :=
  ∀ (x y : Reg) (n : BitVec 4) (s : State), SpriteReadable s n →
    (s.params.sprite = .reject → SpriteOnScreen s x y n) →
    ∃ t, exec (.drw x y n) s = .next t ∧
      (∀ px py, (Covers s x y n px py → t.pixel px py = !s.pixel px py) ∧
        (¬ Covers s x y n px py → t.pixel px py = s.pixel px py)) ∧
      ((∃ px py, Covers s x y n px py ∧ s.pixel px py = true) → t.reg VF = 1) ∧
      ((∀ px py, Covers s x y n px py → s.pixel px py = false) → t.reg VF = 0) ∧
      t.redraw = true ∧ t.pc.toNat = (s.pc.toNat + 2) % 65536 ∧
      RegsExcept [VF] s t ∧ FrameExcept [.pc, .regs, .screen, .redraw] s t

/-- R163: the same sprite drawn again from the same origin, with no other write to the framebuffer between, restores every
pixel, and VF is 1 exactly when a covered pixel was off before the first draw (derived by the spec from R161, R162). Which
pixels are covered off screen is the spec's own decision D11 (log entry 12), the address bound D8 (log entry 8). -/
def Obligations.DrawTwiceRestores : Prop :=
  ∀ (x y : Reg) (n : BitVec 4) (s t u : State), SpriteReadable s n →
    (s.params.sprite = .reject → SpriteOnScreen s x y n) → exec (.drw x y n) s = .next t →
    Same .screen t u → Same .params t u → Same .mem t u → u.index = s.index → u.reg x = s.reg x → u.reg y = s.reg y →
    ∃ v, exec (.drw x y n) u = .next v ∧ (∀ px py, v.pixel px py = s.pixel px py) ∧
      (v.reg VF = 1 ↔ ∃ px py, Covers s x y n px py ∧ s.pixel px py = false) ∧ (v.reg VF = 0 ∨ v.reg VF = 1)

/-- Where DRW halts instead and writes nothing: a sprite byte beyond memory, first; then, under `reject`, a set bit off the
grid (R161, R162, R205; the spec's own decisions D8, D11, D22, log entries 8, 12). -/
def Obligations.DrawHaltsBeforeAnyWrite : Prop :=
  ∀ (x y : Reg) (n : BitVec 4) (s : State),
    (¬ SpriteReadable s n → ∃ t, exec (.drw x y n) s = .next t ∧
      t.run = .halted .memoryOutOfRange (encodeWord (.drw x y n)) s.pc ∧ FrameExcept [.run] s t) ∧
    (SpriteReadable s n → s.params.sprite = .reject → ¬ SpriteOnScreen s x y n →
      ∃ t, exec (.drw x y n) s = .next t ∧
        t.run = .halted .spriteOutOfBounds (encodeWord (.drw x y n)) s.pc ∧ FrameExcept [.run] s t)

/-! ### Timers and keypad -/

/-- R172, R173, R174: the effects of the instructions themselves, before the step's tick. -/
def Obligations.TimerMoves : Prop :=
  ∀ (x : Reg) (s : State),
    (∃ t, exec (.ldVxDt x) s = .next t ∧ t.reg x = s.dt ∧ t.pc.toNat = (s.pc.toNat + 2) % 65536 ∧
      RegsExcept [x] s t ∧ FrameExcept [.pc, .regs] s t) ∧
    (∃ t, exec (.ldDtVx x) s = .next t ∧ t.dt = s.reg x ∧ t.pc.toNat = (s.pc.toNat + 2) % 65536 ∧
      FrameExcept [.pc, .delay] s t) ∧
    (∃ t, exec (.ldStVx x) s = .next t ∧ t.st = s.reg x ∧ t.pc.toNat = (s.pc.toNat + 2) % 65536 ∧
      FrameExcept [.pc, .sound] s t)

/-- R175, R176: skip on the key's state, and halt on an index above 15 (the spec's own decision D13, log entry 11). -/
def Obligations.KeySkips : Prop :=
  ∀ (x : Reg) (s : State),
    (∀ k : Fin 16, (s.reg x).toNat = k.val →
      (∃ t, exec (.skp x) s = .next t ∧
        t.pc.toNat = (s.pc.toNat + if s.key[k.val] = true then 4 else 2) % 65536 ∧ FrameExcept [.pc] s t) ∧
      (∃ t, exec (.sknp x) s = .next t ∧
        t.pc.toNat = (s.pc.toNat + if s.key[k.val] = false then 4 else 2) % 65536 ∧ FrameExcept [.pc] s t)) ∧
    ((s.reg x).toNat > 0xF →
      (∃ t, exec (.skp x) s = .next t ∧ t.run = .halted .keyIndexOutOfRange (encodeWord (.skp x)) s.pc ∧
        FrameExcept [.run] s t) ∧
      (∃ t, exec (.sknp x) s = .next t ∧ t.run = .halted .keyIndexOutOfRange (encodeWord (.sknp x)) s.pc ∧
        FrameExcept [.run] s t))

/-- R177: the least pressed key goes to V[x] (that it is the least is the spec's own decision D14, log entry 11); with none
pressed the instruction completes with nothing written, so the timers still tick (R95) and the word runs again. -/
def Obligations.WaitForKey : Prop :=
  ∀ (x : Reg) (s : State),
    (∀ k : Fin 16, s.key[k.val] = true → (∀ j : Fin 16, j < k → s.key[j.val] = false) →
      ∃ t, exec (.ldVxK x) s = .next t ∧ (t.reg x).toNat = k.val ∧ t.pc.toNat = (s.pc.toNat + 2) % 65536 ∧
        RegsExcept [x] s t ∧ FrameExcept [.pc, .regs] s t) ∧
    ((∀ k : Fin 16, s.key[k.val] = false) → exec (.ldVxK x) s = .next s ∧
      (∀ op, s.run = .running → s.fetch = some op → decodeWord op = some (.ldVxK x) → step s = .next s.tick))

/-! ### What a program cannot see -/

/-- "stale slots are not observable by a program" (R25): two states that differ only in slots at or above sp take steps to
states that again differ only there. -/
def Obligations.StaleSlotsAreUnobservable : Prop :=
  ∀ (s : State) (other : Vector Word 16), (∀ j : Fin 16, j.val < s.sp.val → other[j.val] = s.slot j) →
    ∃ t t', step s = .next t ∧ step { s with stack := other } = .next t' ∧
      FrameExcept [.stack] t t' ∧ t'.sp = t.sp ∧ ∀ j : Fin 16, j.val < t.sp.val → t'.slot j = t.slot j

/-- "the redraw and sound-edge flags, which no instruction reads" (R35): whatever they hold, a step does the same to every
other part of the state. -/
def Obligations.FlagsAreUnobservable : Prop :=
  ∀ (s : State) (r e : Bool), ∃ t t', step s = .next t ∧ step { s with redraw := r, soundEdge := e } = .next t' ∧
    FrameExcept [.redraw, .edge] t t'
end

