-- ==== Sys2Proof/Laws/Encoding.lean ====
section
/-!
SUPPORT. The fields of a packed word, and a word packed again from its fields: what round trips are made of.
-/

namespace Sys2Proof

@[simp] theorem famField_packNnn (f : BitVec 4) (nnn : BitVec 12) : famField (packNnn f nnn) = f := by
  apply BitVec.eq_of_getLsbD_eq; intro i hi
  simp only [famField, packNnn, BitVec.getLsbD_extractLsb', BitVec.getLsbD_append]; grind

@[simp] theorem nnnField_packNnn (f : BitVec 4) (nnn : BitVec 12) : nnnField (packNnn f nnn) = nnn := by
  apply BitVec.eq_of_getLsbD_eq; intro i hi
  simp only [nnnField, packNnn, BitVec.getLsbD_extractLsb', BitVec.getLsbD_append]; grind

@[simp] theorem famField_packXnn (f : BitVec 4) (x : Reg) (nn : Byte) : famField (packXnn f x nn) = f := by
  apply BitVec.eq_of_getLsbD_eq; intro i hi
  simp only [famField, packXnn, BitVec.getLsbD_extractLsb', BitVec.getLsbD_append]; grind

@[simp] theorem xField_packXnn (f : BitVec 4) (x : Reg) (nn : Byte) : xField (packXnn f x nn) = x := by
  have h : (packXnn f x nn).extractLsb' 8 4 = regBits x := by
    apply BitVec.eq_of_getLsbD_eq; intro i hi
    simp only [packXnn, BitVec.getLsbD_extractLsb', BitVec.getLsbD_append]; grind
  simp [xField, h, regBits]

@[simp] theorem nnField_packXnn (f : BitVec 4) (x : Reg) (nn : Byte) : nnField (packXnn f x nn) = nn := by
  apply BitVec.eq_of_getLsbD_eq; intro i hi
  simp only [nnField, packXnn, BitVec.getLsbD_extractLsb', BitVec.getLsbD_append]; grind

@[simp] theorem famField_packXyn (f : BitVec 4) (x y : Reg) (n : BitVec 4) : famField (packXyn f x y n) = f := by
  apply BitVec.eq_of_getLsbD_eq; intro i hi
  simp only [famField, packXyn, BitVec.getLsbD_extractLsb', BitVec.getLsbD_append]; grind

@[simp] theorem xField_packXyn (f : BitVec 4) (x y : Reg) (n : BitVec 4) : xField (packXyn f x y n) = x := by
  have h : (packXyn f x y n).extractLsb' 8 4 = regBits x := by
    apply BitVec.eq_of_getLsbD_eq; intro i hi
    simp only [packXyn, BitVec.getLsbD_extractLsb', BitVec.getLsbD_append]; grind
  simp [xField, h, regBits]

@[simp] theorem yField_packXyn (f : BitVec 4) (x y : Reg) (n : BitVec 4) : yField (packXyn f x y n) = y := by
  have h : (packXyn f x y n).extractLsb' 4 4 = regBits y := by
    apply BitVec.eq_of_getLsbD_eq; intro i hi
    simp only [packXyn, BitVec.getLsbD_extractLsb', BitVec.getLsbD_append]; grind
  simp [yField, h, regBits]

@[simp] theorem nField_packXyn (f : BitVec 4) (x y : Reg) (n : BitVec 4) : nField (packXyn f x y n) = n := by
  apply BitVec.eq_of_getLsbD_eq; intro i hi
  simp only [nField, packXyn, BitVec.getLsbD_extractLsb', BitVec.getLsbD_append]; grind

@[simp] theorem regBits_xField (w : Word) : regBits (xField w) = w.extractLsb' 8 4 := rfl
@[simp] theorem regBits_yField (w : Word) : regBits (yField w) = w.extractLsb' 4 4 := rfl

/-- Every word of shape `fNNN` is packed from its fields. -/
theorem packNnn_fields (w : Word) : packNnn (famField w) (nnnField w) = w := by
  apply BitVec.eq_of_getLsbD_eq; intro i hi
  simp only [famField, nnnField, packNnn, BitVec.getLsbD_extractLsb', BitVec.getLsbD_append]; grind

/-- Every word of shape `fXNN` is packed from its fields. -/
theorem packXnn_fields (w : Word) : packXnn (famField w) (xField w) (nnField w) = w := by
  apply BitVec.eq_of_getLsbD_eq; intro i hi
  simp only [famField, nnField, packXnn, regBits_xField, BitVec.getLsbD_extractLsb', BitVec.getLsbD_append]; grind

/-- Every word of shape `fXYN` is packed from its fields. -/
theorem packXyn_fields (w : Word) : packXyn (famField w) (xField w) (yField w) (nField w) = w := by
  apply BitVec.eq_of_getLsbD_eq; intro i hi
  simp only [famField, nField, packXyn, regBits_xField, regBits_yField, BitVec.getLsbD_extractLsb', BitVec.getLsbD_append]
  grind

/-- The big-endian word of a word's two bytes is that word. -/
@[simp] theorem wordOfBytes_split (w : Word) : wordOfBytes (w.extractLsb' 8 8) (w.extractLsb' 0 8) = w := by
  apply BitVec.eq_of_getLsbD_eq; intro i hi
  simp only [wordOfBytes, BitVec.getLsbD_extractLsb', BitVec.getLsbD_append]; grind

/-- The word's number: the byte at the lower address counts 256. -/
theorem wordOfBytes_toNat (hi lo : Byte) : (wordOfBytes hi lo).toNat = hi.toNat * 256 + lo.toNat := by
  rw [wordOfBytes, BitVec.toNat_append, Nat.shiftLeft_eq, Nat.mul_comm, ← Nat.two_pow_add_eq_or_of_lt lo.isLt]

@[simp] theorem decodeBytes_bytesOfWord (w : Word) :
    decodeBytes (bytesOfWord w) = (match decodeWord w with | some i => .instr i | none => .unknownOpcode w) := by
  cases h : decodeWord w <;> simp [decodeBytes, bytesOfWord, h]

/-! ### Rows of the opcode table -/

/-- The mask F000 looks at the family alone. -/
theorem and_F000_eq_iff (w : Word) (f : BitVec 4) : w &&& 0xF000 = packNnn f 0 ↔ famField w = f := by
  constructor
  · intro h
    have h' := congrArg famField h
    rw [famField_packNnn] at h'
    rw [← h']
    apply BitVec.eq_of_getLsbD_eq; intro i hi
    simp only [famField, BitVec.getLsbD_extractLsb', BitVec.getLsbD_and]
    interval_cases i <;> simp
  · rintro rfl
    apply BitVec.eq_of_getLsbD_eq; intro i hi
    simp only [famField, packNnn, BitVec.getLsbD_append, BitVec.getLsbD_extractLsb', BitVec.getLsbD_and]
    interval_cases i <;> simp

/-- The mask F00F looks at the family and the low nibble. -/
theorem and_F00F_eq_iff (w : Word) (f n : BitVec 4) :
    w &&& 0xF00F = packXyn f 0 0 n ↔ famField w = f ∧ nField w = n := by
  constructor
  · intro h
    have h₁ := congrArg famField h
    have h₂ := congrArg nField h
    rw [famField_packXyn] at h₁; rw [nField_packXyn] at h₂
    rw [← h₁, ← h₂]
    constructor
    · apply BitVec.eq_of_getLsbD_eq; intro i hi
      simp only [famField, BitVec.getLsbD_extractLsb', BitVec.getLsbD_and]
      interval_cases i <;> simp
    · apply BitVec.eq_of_getLsbD_eq; intro i hi
      simp only [nField, BitVec.getLsbD_extractLsb', BitVec.getLsbD_and]
      interval_cases i <;> simp
  · rintro ⟨rfl, rfl⟩
    apply BitVec.eq_of_getLsbD_eq; intro i hi
    simp only [famField, nField, packXyn, regBits, BitVec.getLsbD_append, BitVec.getLsbD_extractLsb', BitVec.getLsbD_and]
    interval_cases i <;> simp

/-- The mask F0FF looks at the family and the low byte. -/
theorem and_F0FF_eq_iff (w : Word) (f : BitVec 4) (nn : Byte) :
    w &&& 0xF0FF = packXnn f 0 nn ↔ famField w = f ∧ nnField w = nn := by
  constructor
  · intro h
    have h₁ := congrArg famField h
    have h₂ := congrArg nnField h
    rw [famField_packXnn] at h₁; rw [nnField_packXnn] at h₂
    rw [← h₁, ← h₂]
    constructor
    · apply BitVec.eq_of_getLsbD_eq; intro i hi
      simp only [famField, BitVec.getLsbD_extractLsb', BitVec.getLsbD_and]
      interval_cases i <;> simp
    · apply BitVec.eq_of_getLsbD_eq; intro i hi
      simp only [nnField, BitVec.getLsbD_extractLsb', BitVec.getLsbD_and]
      interval_cases i <;> simp
  · rintro ⟨rfl, rfl⟩
    apply BitVec.eq_of_getLsbD_eq; intro i hi
    simp only [famField, nnField, packXnn, regBits, BitVec.getLsbD_append, BitVec.getLsbD_extractLsb', BitVec.getLsbD_and]
    interval_cases i <;> simp

/-- Every family is one of sixteen. -/
theorem nibble_cases (f : BitVec 4) : f = 0 ∨ f = 1 ∨ f = 2 ∨ f = 3 ∨ f = 4 ∨ f = 5 ∨ f = 6 ∨ f = 7 ∨ f = 8 ∨ f = 9 ∨
    f = 10 ∨ f = 11 ∨ f = 12 ∨ f = 13 ∨ f = 14 ∨ f = 15 := by bv_omega

theorem famField_toNat (w : Word) : (famField w).toNat = w.toNat / 4096 := by
  have := w.isLt
  simp only [famField, BitVec.extractLsb'_toNat, Nat.shiftRight_eq_div_pow]; omega

theorem nField_toNat (w : Word) : (nField w).toNat = w.toNat % 16 := by
  simp [nField, BitVec.extractLsb'_toNat]

theorem nnField_toNat (w : Word) : (nnField w).toNat = w.toNat % 256 := by
  simp [nnField, BitVec.extractLsb'_toNat]

end Sys2Proof
end

