-- ==== Sys2Proof/Laws/State.lean ====
section
/-!
SUPPORT. What each field, and each read of the state, is after each named update: one lemma per field per update, true by
definition, so that no later proof unfolds a record update.
-/

namespace Sys2Proof.Machine

/-! ### `State.setReg` -/

section
variable (s : State) (r : Reg) (b : Byte)

@[simp] theorem setReg_params : (s.setReg r b).params = s.params := rfl
@[simp] theorem setReg_mem : (s.setReg r b).mem = s.mem := rfl
@[simp] theorem setReg_v : (s.setReg r b).v = s.v.set r.val b := rfl
@[simp] theorem setReg_index : (s.setReg r b).index = s.index := rfl
@[simp] theorem setReg_pc : (s.setReg r b).pc = s.pc := rfl
@[simp] theorem setReg_stack : (s.setReg r b).stack = s.stack := rfl
@[simp] theorem setReg_sp : (s.setReg r b).sp = s.sp := rfl
@[simp] theorem setReg_dt : (s.setReg r b).dt = s.dt := rfl
@[simp] theorem setReg_st : (s.setReg r b).st = s.st := rfl
@[simp] theorem setReg_fb : (s.setReg r b).fb = s.fb := rfl
@[simp] theorem setReg_redraw : (s.setReg r b).redraw = s.redraw := rfl
@[simp] theorem setReg_key : (s.setReg r b).key = s.key := rfl
@[simp] theorem setReg_soundEdge : (s.setReg r b).soundEdge = s.soundEdge := rfl
@[simp] theorem setReg_run : (s.setReg r b).run = s.run := rfl
@[simp] theorem setReg_draws : (s.setReg r b).draws = s.draws := rfl
@[simp] theorem setReg_slot (j : Fin 16) : (s.setReg r b).slot j = s.slot j := rfl
@[simp] theorem setReg_pixel (px : Fin 64) (py : Fin 32) : (s.setReg r b).pixel px py = s.pixel px py := rfl
@[simp] theorem setReg_readByte (a : Nat) : (s.setReg r b).readByte a = s.readByte a := rfl
@[simp] theorem setReg_dataAddr (k : Nat) : (s.setReg r b).dataAddr k = s.dataAddr k := rfl

end

/-! ### `State.setIndex` -/

section
variable (s : State) (w : Word)

@[simp] theorem setIndex_params : (s.setIndex w).params = s.params := rfl
@[simp] theorem setIndex_mem : (s.setIndex w).mem = s.mem := rfl
@[simp] theorem setIndex_v : (s.setIndex w).v = s.v := rfl
@[simp] theorem setIndex_index : (s.setIndex w).index = w := rfl
@[simp] theorem setIndex_pc : (s.setIndex w).pc = s.pc := rfl
@[simp] theorem setIndex_stack : (s.setIndex w).stack = s.stack := rfl
@[simp] theorem setIndex_sp : (s.setIndex w).sp = s.sp := rfl
@[simp] theorem setIndex_dt : (s.setIndex w).dt = s.dt := rfl
@[simp] theorem setIndex_st : (s.setIndex w).st = s.st := rfl
@[simp] theorem setIndex_fb : (s.setIndex w).fb = s.fb := rfl
@[simp] theorem setIndex_redraw : (s.setIndex w).redraw = s.redraw := rfl
@[simp] theorem setIndex_key : (s.setIndex w).key = s.key := rfl
@[simp] theorem setIndex_soundEdge : (s.setIndex w).soundEdge = s.soundEdge := rfl
@[simp] theorem setIndex_run : (s.setIndex w).run = s.run := rfl
@[simp] theorem setIndex_draws : (s.setIndex w).draws = s.draws := rfl
@[simp] theorem setIndex_reg (q : Reg) : (s.setIndex w).reg q = s.reg q := rfl
@[simp] theorem setIndex_slot (j : Fin 16) : (s.setIndex w).slot j = s.slot j := rfl
@[simp] theorem setIndex_pixel (px : Fin 64) (py : Fin 32) : (s.setIndex w).pixel px py = s.pixel px py := rfl
@[simp] theorem setIndex_readByte (a : Nat) : (s.setIndex w).readByte a = s.readByte a := rfl

end

/-! ### `State.setPc` -/

section
variable (s : State) (w : Word)

@[simp] theorem setPc_params : (s.setPc w).params = s.params := rfl
@[simp] theorem setPc_mem : (s.setPc w).mem = s.mem := rfl
@[simp] theorem setPc_v : (s.setPc w).v = s.v := rfl
@[simp] theorem setPc_index : (s.setPc w).index = s.index := rfl
@[simp] theorem setPc_pc : (s.setPc w).pc = w := rfl
@[simp] theorem setPc_stack : (s.setPc w).stack = s.stack := rfl
@[simp] theorem setPc_sp : (s.setPc w).sp = s.sp := rfl
@[simp] theorem setPc_dt : (s.setPc w).dt = s.dt := rfl
@[simp] theorem setPc_st : (s.setPc w).st = s.st := rfl
@[simp] theorem setPc_fb : (s.setPc w).fb = s.fb := rfl
@[simp] theorem setPc_redraw : (s.setPc w).redraw = s.redraw := rfl
@[simp] theorem setPc_key : (s.setPc w).key = s.key := rfl
@[simp] theorem setPc_soundEdge : (s.setPc w).soundEdge = s.soundEdge := rfl
@[simp] theorem setPc_run : (s.setPc w).run = s.run := rfl
@[simp] theorem setPc_draws : (s.setPc w).draws = s.draws := rfl
@[simp] theorem setPc_reg (q : Reg) : (s.setPc w).reg q = s.reg q := rfl
@[simp] theorem setPc_slot (j : Fin 16) : (s.setPc w).slot j = s.slot j := rfl
@[simp] theorem setPc_pixel (px : Fin 64) (py : Fin 32) : (s.setPc w).pixel px py = s.pixel px py := rfl
@[simp] theorem setPc_readByte (a : Nat) : (s.setPc w).readByte a = s.readByte a := rfl
@[simp] theorem setPc_dataAddr (k : Nat) : (s.setPc w).dataAddr k = s.dataAddr k := rfl

end

/-! ### `State.advance` -/

section
variable (s : State)

@[simp] theorem advance_params : (s.advance).params = s.params := rfl
@[simp] theorem advance_mem : (s.advance).mem = s.mem := rfl
@[simp] theorem advance_v : (s.advance).v = s.v := rfl
@[simp] theorem advance_index : (s.advance).index = s.index := rfl
@[simp] theorem advance_pc : (s.advance).pc = s.pc + 2 := rfl
@[simp] theorem advance_stack : (s.advance).stack = s.stack := rfl
@[simp] theorem advance_sp : (s.advance).sp = s.sp := rfl
@[simp] theorem advance_dt : (s.advance).dt = s.dt := rfl
@[simp] theorem advance_st : (s.advance).st = s.st := rfl
@[simp] theorem advance_fb : (s.advance).fb = s.fb := rfl
@[simp] theorem advance_redraw : (s.advance).redraw = s.redraw := rfl
@[simp] theorem advance_key : (s.advance).key = s.key := rfl
@[simp] theorem advance_soundEdge : (s.advance).soundEdge = s.soundEdge := rfl
@[simp] theorem advance_run : (s.advance).run = s.run := rfl
@[simp] theorem advance_draws : (s.advance).draws = s.draws := rfl
@[simp] theorem advance_reg (q : Reg) : (s.advance).reg q = s.reg q := rfl
@[simp] theorem advance_slot (j : Fin 16) : (s.advance).slot j = s.slot j := rfl
@[simp] theorem advance_pixel (px : Fin 64) (py : Fin 32) : (s.advance).pixel px py = s.pixel px py := rfl
@[simp] theorem advance_readByte (a : Nat) : (s.advance).readByte a = s.readByte a := rfl
@[simp] theorem advance_dataAddr (k : Nat) : (s.advance).dataAddr k = s.dataAddr k := rfl

end

/-! ### `State.skipIf` -/

section
variable (s : State) (c : Bool)

@[simp] theorem skipIf_params : (s.skipIf c).params = s.params := rfl
@[simp] theorem skipIf_mem : (s.skipIf c).mem = s.mem := rfl
@[simp] theorem skipIf_v : (s.skipIf c).v = s.v := rfl
@[simp] theorem skipIf_index : (s.skipIf c).index = s.index := rfl
@[simp] theorem skipIf_pc : (s.skipIf c).pc = (if c then s.pc + 4 else s.pc + 2) := rfl
@[simp] theorem skipIf_stack : (s.skipIf c).stack = s.stack := rfl
@[simp] theorem skipIf_sp : (s.skipIf c).sp = s.sp := rfl
@[simp] theorem skipIf_dt : (s.skipIf c).dt = s.dt := rfl
@[simp] theorem skipIf_st : (s.skipIf c).st = s.st := rfl
@[simp] theorem skipIf_fb : (s.skipIf c).fb = s.fb := rfl
@[simp] theorem skipIf_redraw : (s.skipIf c).redraw = s.redraw := rfl
@[simp] theorem skipIf_key : (s.skipIf c).key = s.key := rfl
@[simp] theorem skipIf_soundEdge : (s.skipIf c).soundEdge = s.soundEdge := rfl
@[simp] theorem skipIf_run : (s.skipIf c).run = s.run := rfl
@[simp] theorem skipIf_draws : (s.skipIf c).draws = s.draws := rfl
@[simp] theorem skipIf_reg (q : Reg) : (s.skipIf c).reg q = s.reg q := rfl
@[simp] theorem skipIf_slot (j : Fin 16) : (s.skipIf c).slot j = s.slot j := rfl
@[simp] theorem skipIf_pixel (px : Fin 64) (py : Fin 32) : (s.skipIf c).pixel px py = s.pixel px py := rfl
@[simp] theorem skipIf_readByte (a : Nat) : (s.skipIf c).readByte a = s.readByte a := rfl
@[simp] theorem skipIf_dataAddr (k : Nat) : (s.skipIf c).dataAddr k = s.dataAddr k := rfl

end

/-! ### `State.raiseHalt` -/

section
variable (s : State) (e : HaltReason) (op : Word)

@[simp] theorem raiseHalt_params : (s.raiseHalt e op).params = s.params := rfl
@[simp] theorem raiseHalt_mem : (s.raiseHalt e op).mem = s.mem := rfl
@[simp] theorem raiseHalt_v : (s.raiseHalt e op).v = s.v := rfl
@[simp] theorem raiseHalt_index : (s.raiseHalt e op).index = s.index := rfl
@[simp] theorem raiseHalt_pc : (s.raiseHalt e op).pc = s.pc := rfl
@[simp] theorem raiseHalt_stack : (s.raiseHalt e op).stack = s.stack := rfl
@[simp] theorem raiseHalt_sp : (s.raiseHalt e op).sp = s.sp := rfl
@[simp] theorem raiseHalt_dt : (s.raiseHalt e op).dt = s.dt := rfl
@[simp] theorem raiseHalt_st : (s.raiseHalt e op).st = s.st := rfl
@[simp] theorem raiseHalt_fb : (s.raiseHalt e op).fb = s.fb := rfl
@[simp] theorem raiseHalt_redraw : (s.raiseHalt e op).redraw = s.redraw := rfl
@[simp] theorem raiseHalt_key : (s.raiseHalt e op).key = s.key := rfl
@[simp] theorem raiseHalt_soundEdge : (s.raiseHalt e op).soundEdge = s.soundEdge := rfl
@[simp] theorem raiseHalt_run : (s.raiseHalt e op).run = .halted e op s.pc := rfl
@[simp] theorem raiseHalt_draws : (s.raiseHalt e op).draws = s.draws := rfl
@[simp] theorem raiseHalt_reg (q : Reg) : (s.raiseHalt e op).reg q = s.reg q := rfl
@[simp] theorem raiseHalt_slot (j : Fin 16) : (s.raiseHalt e op).slot j = s.slot j := rfl
@[simp] theorem raiseHalt_pixel (px : Fin 64) (py : Fin 32) : (s.raiseHalt e op).pixel px py = s.pixel px py := rfl
@[simp] theorem raiseHalt_readByte (a : Nat) : (s.raiseHalt e op).readByte a = s.readByte a := rfl
@[simp] theorem raiseHalt_dataAddr (k : Nat) : (s.raiseHalt e op).dataAddr k = s.dataAddr k := rfl

end

/-! ### `State.setDelay` -/

section
variable (s : State) (b : Byte)

@[simp] theorem setDelay_params : (s.setDelay b).params = s.params := rfl
@[simp] theorem setDelay_mem : (s.setDelay b).mem = s.mem := rfl
@[simp] theorem setDelay_v : (s.setDelay b).v = s.v := rfl
@[simp] theorem setDelay_index : (s.setDelay b).index = s.index := rfl
@[simp] theorem setDelay_pc : (s.setDelay b).pc = s.pc := rfl
@[simp] theorem setDelay_stack : (s.setDelay b).stack = s.stack := rfl
@[simp] theorem setDelay_sp : (s.setDelay b).sp = s.sp := rfl
@[simp] theorem setDelay_dt : (s.setDelay b).dt = b := rfl
@[simp] theorem setDelay_st : (s.setDelay b).st = s.st := rfl
@[simp] theorem setDelay_fb : (s.setDelay b).fb = s.fb := rfl
@[simp] theorem setDelay_redraw : (s.setDelay b).redraw = s.redraw := rfl
@[simp] theorem setDelay_key : (s.setDelay b).key = s.key := rfl
@[simp] theorem setDelay_soundEdge : (s.setDelay b).soundEdge = s.soundEdge := rfl
@[simp] theorem setDelay_run : (s.setDelay b).run = s.run := rfl
@[simp] theorem setDelay_draws : (s.setDelay b).draws = s.draws := rfl
@[simp] theorem setDelay_reg (q : Reg) : (s.setDelay b).reg q = s.reg q := rfl
@[simp] theorem setDelay_slot (j : Fin 16) : (s.setDelay b).slot j = s.slot j := rfl
@[simp] theorem setDelay_pixel (px : Fin 64) (py : Fin 32) : (s.setDelay b).pixel px py = s.pixel px py := rfl
@[simp] theorem setDelay_readByte (a : Nat) : (s.setDelay b).readByte a = s.readByte a := rfl
@[simp] theorem setDelay_dataAddr (k : Nat) : (s.setDelay b).dataAddr k = s.dataAddr k := rfl

end

/-! ### `State.setSound` -/

section
variable (s : State) (b : Byte)

@[simp] theorem setSound_params : (s.setSound b).params = s.params := rfl
@[simp] theorem setSound_mem : (s.setSound b).mem = s.mem := rfl
@[simp] theorem setSound_v : (s.setSound b).v = s.v := rfl
@[simp] theorem setSound_index : (s.setSound b).index = s.index := rfl
@[simp] theorem setSound_pc : (s.setSound b).pc = s.pc := rfl
@[simp] theorem setSound_stack : (s.setSound b).stack = s.stack := rfl
@[simp] theorem setSound_sp : (s.setSound b).sp = s.sp := rfl
@[simp] theorem setSound_dt : (s.setSound b).dt = s.dt := rfl
@[simp] theorem setSound_st : (s.setSound b).st = b := rfl
@[simp] theorem setSound_fb : (s.setSound b).fb = s.fb := rfl
@[simp] theorem setSound_redraw : (s.setSound b).redraw = s.redraw := rfl
@[simp] theorem setSound_key : (s.setSound b).key = s.key := rfl
@[simp] theorem setSound_soundEdge : (s.setSound b).soundEdge = s.soundEdge := rfl
@[simp] theorem setSound_run : (s.setSound b).run = s.run := rfl
@[simp] theorem setSound_draws : (s.setSound b).draws = s.draws := rfl
@[simp] theorem setSound_reg (q : Reg) : (s.setSound b).reg q = s.reg q := rfl
@[simp] theorem setSound_slot (j : Fin 16) : (s.setSound b).slot j = s.slot j := rfl
@[simp] theorem setSound_pixel (px : Fin 64) (py : Fin 32) : (s.setSound b).pixel px py = s.pixel px py := rfl
@[simp] theorem setSound_readByte (a : Nat) : (s.setSound b).readByte a = s.readByte a := rfl
@[simp] theorem setSound_dataAddr (k : Nat) : (s.setSound b).dataAddr k = s.dataAddr k := rfl

end

/-! ### `State.tick` -/

section
variable (s : State)

@[simp] theorem tick_params : (s.tick).params = s.params := rfl
@[simp] theorem tick_mem : (s.tick).mem = s.mem := rfl
@[simp] theorem tick_v : (s.tick).v = s.v := rfl
@[simp] theorem tick_index : (s.tick).index = s.index := rfl
@[simp] theorem tick_pc : (s.tick).pc = s.pc := rfl
@[simp] theorem tick_stack : (s.tick).stack = s.stack := rfl
@[simp] theorem tick_sp : (s.tick).sp = s.sp := rfl
@[simp] theorem tick_dt : (s.tick).dt = countDown s.dt := rfl
@[simp] theorem tick_st : (s.tick).st = countDown s.st := rfl
@[simp] theorem tick_fb : (s.tick).fb = s.fb := rfl
@[simp] theorem tick_redraw : (s.tick).redraw = s.redraw := rfl
@[simp] theorem tick_key : (s.tick).key = s.key := rfl
@[simp] theorem tick_soundEdge : (s.tick).soundEdge = (s.soundEdge || decide (s.st = 1)) := rfl
@[simp] theorem tick_run : (s.tick).run = s.run := rfl
@[simp] theorem tick_draws : (s.tick).draws = s.draws := rfl
@[simp] theorem tick_reg (q : Reg) : (s.tick).reg q = s.reg q := rfl
@[simp] theorem tick_slot (j : Fin 16) : (s.tick).slot j = s.slot j := rfl
@[simp] theorem tick_pixel (px : Fin 64) (py : Fin 32) : (s.tick).pixel px py = s.pixel px py := rfl
@[simp] theorem tick_readByte (a : Nat) : (s.tick).readByte a = s.readByte a := rfl
@[simp] theorem tick_dataAddr (k : Nat) : (s.tick).dataAddr k = s.dataAddr k := rfl

end

/-! ### `State.countDraw` -/

section
variable (s : State)

@[simp] theorem countDraw_params : (s.countDraw).params = s.params := rfl
@[simp] theorem countDraw_mem : (s.countDraw).mem = s.mem := rfl
@[simp] theorem countDraw_v : (s.countDraw).v = s.v := rfl
@[simp] theorem countDraw_index : (s.countDraw).index = s.index := rfl
@[simp] theorem countDraw_pc : (s.countDraw).pc = s.pc := rfl
@[simp] theorem countDraw_stack : (s.countDraw).stack = s.stack := rfl
@[simp] theorem countDraw_sp : (s.countDraw).sp = s.sp := rfl
@[simp] theorem countDraw_dt : (s.countDraw).dt = s.dt := rfl
@[simp] theorem countDraw_st : (s.countDraw).st = s.st := rfl
@[simp] theorem countDraw_fb : (s.countDraw).fb = s.fb := rfl
@[simp] theorem countDraw_redraw : (s.countDraw).redraw = s.redraw := rfl
@[simp] theorem countDraw_key : (s.countDraw).key = s.key := rfl
@[simp] theorem countDraw_soundEdge : (s.countDraw).soundEdge = s.soundEdge := rfl
@[simp] theorem countDraw_run : (s.countDraw).run = s.run := rfl
@[simp] theorem countDraw_draws : (s.countDraw).draws = s.draws + 1 := rfl
@[simp] theorem countDraw_reg (q : Reg) : (s.countDraw).reg q = s.reg q := rfl
@[simp] theorem countDraw_slot (j : Fin 16) : (s.countDraw).slot j = s.slot j := rfl
@[simp] theorem countDraw_pixel (px : Fin 64) (py : Fin 32) : (s.countDraw).pixel px py = s.pixel px py := rfl
@[simp] theorem countDraw_readByte (a : Nat) : (s.countDraw).readByte a = s.readByte a := rfl
@[simp] theorem countDraw_dataAddr (k : Nat) : (s.countDraw).dataAddr k = s.dataAddr k := rfl

end

/-! ### `State.writeByte` -/

section
variable (s : State) (m : Nat) (b : Byte)

@[simp] theorem writeByte_params : (s.writeByte m b).params = s.params := rfl
@[simp] theorem writeByte_mem : (s.writeByte m b).mem = Memory.writeByte s.params s.mem m b := rfl
@[simp] theorem writeByte_v : (s.writeByte m b).v = s.v := rfl
@[simp] theorem writeByte_index : (s.writeByte m b).index = s.index := rfl
@[simp] theorem writeByte_pc : (s.writeByte m b).pc = s.pc := rfl
@[simp] theorem writeByte_stack : (s.writeByte m b).stack = s.stack := rfl
@[simp] theorem writeByte_sp : (s.writeByte m b).sp = s.sp := rfl
@[simp] theorem writeByte_dt : (s.writeByte m b).dt = s.dt := rfl
@[simp] theorem writeByte_st : (s.writeByte m b).st = s.st := rfl
@[simp] theorem writeByte_fb : (s.writeByte m b).fb = s.fb := rfl
@[simp] theorem writeByte_redraw : (s.writeByte m b).redraw = s.redraw := rfl
@[simp] theorem writeByte_key : (s.writeByte m b).key = s.key := rfl
@[simp] theorem writeByte_soundEdge : (s.writeByte m b).soundEdge = s.soundEdge := rfl
@[simp] theorem writeByte_run : (s.writeByte m b).run = s.run := rfl
@[simp] theorem writeByte_draws : (s.writeByte m b).draws = s.draws := rfl
@[simp] theorem writeByte_reg (q : Reg) : (s.writeByte m b).reg q = s.reg q := rfl
@[simp] theorem writeByte_slot (j : Fin 16) : (s.writeByte m b).slot j = s.slot j := rfl
@[simp] theorem writeByte_pixel (px : Fin 64) (py : Fin 32) : (s.writeByte m b).pixel px py = s.pixel px py := rfl
@[simp] theorem writeByte_dataAddr (k : Nat) : (s.writeByte m b).dataAddr k = s.dataAddr k := rfl

end

/-! ### `State.setScreen` -/

section
variable (s : State) (g : Framebuffer)

@[simp] theorem setScreen_params : (s.setScreen g).params = s.params := rfl
@[simp] theorem setScreen_mem : (s.setScreen g).mem = s.mem := rfl
@[simp] theorem setScreen_v : (s.setScreen g).v = s.v := rfl
@[simp] theorem setScreen_index : (s.setScreen g).index = s.index := rfl
@[simp] theorem setScreen_pc : (s.setScreen g).pc = s.pc := rfl
@[simp] theorem setScreen_stack : (s.setScreen g).stack = s.stack := rfl
@[simp] theorem setScreen_sp : (s.setScreen g).sp = s.sp := rfl
@[simp] theorem setScreen_dt : (s.setScreen g).dt = s.dt := rfl
@[simp] theorem setScreen_st : (s.setScreen g).st = s.st := rfl
@[simp] theorem setScreen_fb : (s.setScreen g).fb = g := rfl
@[simp] theorem setScreen_redraw : (s.setScreen g).redraw = true := rfl
@[simp] theorem setScreen_key : (s.setScreen g).key = s.key := rfl
@[simp] theorem setScreen_soundEdge : (s.setScreen g).soundEdge = s.soundEdge := rfl
@[simp] theorem setScreen_run : (s.setScreen g).run = s.run := rfl
@[simp] theorem setScreen_draws : (s.setScreen g).draws = s.draws := rfl
@[simp] theorem setScreen_reg (q : Reg) : (s.setScreen g).reg q = s.reg q := rfl
@[simp] theorem setScreen_slot (j : Fin 16) : (s.setScreen g).slot j = s.slot j := rfl
@[simp] theorem setScreen_readByte (a : Nat) : (s.setScreen g).readByte a = s.readByte a := rfl
@[simp] theorem setScreen_dataAddr (k : Nat) : (s.setScreen g).dataAddr k = s.dataAddr k := rfl

end

/-! ### `State.setKey` -/

section
variable (s : State) (i : Fin 16) (b : Bool)

@[simp] theorem setKey_params : (s.setKey i b).params = s.params := rfl
@[simp] theorem setKey_mem : (s.setKey i b).mem = s.mem := rfl
@[simp] theorem setKey_v : (s.setKey i b).v = s.v := rfl
@[simp] theorem setKey_index : (s.setKey i b).index = s.index := rfl
@[simp] theorem setKey_pc : (s.setKey i b).pc = s.pc := rfl
@[simp] theorem setKey_stack : (s.setKey i b).stack = s.stack := rfl
@[simp] theorem setKey_sp : (s.setKey i b).sp = s.sp := rfl
@[simp] theorem setKey_dt : (s.setKey i b).dt = s.dt := rfl
@[simp] theorem setKey_st : (s.setKey i b).st = s.st := rfl
@[simp] theorem setKey_fb : (s.setKey i b).fb = s.fb := rfl
@[simp] theorem setKey_redraw : (s.setKey i b).redraw = s.redraw := rfl
@[simp] theorem setKey_key : (s.setKey i b).key = s.key.set i.val b := rfl
@[simp] theorem setKey_soundEdge : (s.setKey i b).soundEdge = s.soundEdge := rfl
@[simp] theorem setKey_run : (s.setKey i b).run = s.run := rfl
@[simp] theorem setKey_draws : (s.setKey i b).draws = s.draws := rfl
@[simp] theorem setKey_reg (q : Reg) : (s.setKey i b).reg q = s.reg q := rfl
@[simp] theorem setKey_slot (j : Fin 16) : (s.setKey i b).slot j = s.slot j := rfl
@[simp] theorem setKey_pixel (px : Fin 64) (py : Fin 32) : (s.setKey i b).pixel px py = s.pixel px py := rfl
@[simp] theorem setKey_readByte (a : Nat) : (s.setKey i b).readByte a = s.readByte a := rfl
@[simp] theorem setKey_dataAddr (k : Nat) : (s.setKey i b).dataAddr k = s.dataAddr k := rfl

end

/-! ### `State.clearRedraw` -/

section
variable (s : State)

@[simp] theorem clearRedraw_params : (s.clearRedraw).params = s.params := rfl
@[simp] theorem clearRedraw_mem : (s.clearRedraw).mem = s.mem := rfl
@[simp] theorem clearRedraw_v : (s.clearRedraw).v = s.v := rfl
@[simp] theorem clearRedraw_index : (s.clearRedraw).index = s.index := rfl
@[simp] theorem clearRedraw_pc : (s.clearRedraw).pc = s.pc := rfl
@[simp] theorem clearRedraw_stack : (s.clearRedraw).stack = s.stack := rfl
@[simp] theorem clearRedraw_sp : (s.clearRedraw).sp = s.sp := rfl
@[simp] theorem clearRedraw_dt : (s.clearRedraw).dt = s.dt := rfl
@[simp] theorem clearRedraw_st : (s.clearRedraw).st = s.st := rfl
@[simp] theorem clearRedraw_fb : (s.clearRedraw).fb = s.fb := rfl
@[simp] theorem clearRedraw_redraw : (s.clearRedraw).redraw = false := rfl
@[simp] theorem clearRedraw_key : (s.clearRedraw).key = s.key := rfl
@[simp] theorem clearRedraw_soundEdge : (s.clearRedraw).soundEdge = s.soundEdge := rfl
@[simp] theorem clearRedraw_run : (s.clearRedraw).run = s.run := rfl
@[simp] theorem clearRedraw_draws : (s.clearRedraw).draws = s.draws := rfl
@[simp] theorem clearRedraw_reg (q : Reg) : (s.clearRedraw).reg q = s.reg q := rfl
@[simp] theorem clearRedraw_slot (j : Fin 16) : (s.clearRedraw).slot j = s.slot j := rfl
@[simp] theorem clearRedraw_pixel (px : Fin 64) (py : Fin 32) : (s.clearRedraw).pixel px py = s.pixel px py := rfl
@[simp] theorem clearRedraw_readByte (a : Nat) : (s.clearRedraw).readByte a = s.readByte a := rfl
@[simp] theorem clearRedraw_dataAddr (k : Nat) : (s.clearRedraw).dataAddr k = s.dataAddr k := rfl

end

/-! ### `State.clearSoundEdge` -/

section
variable (s : State)

@[simp] theorem clearSoundEdge_params : (s.clearSoundEdge).params = s.params := rfl
@[simp] theorem clearSoundEdge_mem : (s.clearSoundEdge).mem = s.mem := rfl
@[simp] theorem clearSoundEdge_v : (s.clearSoundEdge).v = s.v := rfl
@[simp] theorem clearSoundEdge_index : (s.clearSoundEdge).index = s.index := rfl
@[simp] theorem clearSoundEdge_pc : (s.clearSoundEdge).pc = s.pc := rfl
@[simp] theorem clearSoundEdge_stack : (s.clearSoundEdge).stack = s.stack := rfl
@[simp] theorem clearSoundEdge_sp : (s.clearSoundEdge).sp = s.sp := rfl
@[simp] theorem clearSoundEdge_dt : (s.clearSoundEdge).dt = s.dt := rfl
@[simp] theorem clearSoundEdge_st : (s.clearSoundEdge).st = s.st := rfl
@[simp] theorem clearSoundEdge_fb : (s.clearSoundEdge).fb = s.fb := rfl
@[simp] theorem clearSoundEdge_redraw : (s.clearSoundEdge).redraw = s.redraw := rfl
@[simp] theorem clearSoundEdge_key : (s.clearSoundEdge).key = s.key := rfl
@[simp] theorem clearSoundEdge_soundEdge : (s.clearSoundEdge).soundEdge = false := rfl
@[simp] theorem clearSoundEdge_run : (s.clearSoundEdge).run = s.run := rfl
@[simp] theorem clearSoundEdge_draws : (s.clearSoundEdge).draws = s.draws := rfl
@[simp] theorem clearSoundEdge_reg (q : Reg) : (s.clearSoundEdge).reg q = s.reg q := rfl
@[simp] theorem clearSoundEdge_slot (j : Fin 16) : (s.clearSoundEdge).slot j = s.slot j := rfl
@[simp] theorem clearSoundEdge_pixel (px : Fin 64) (py : Fin 32) : (s.clearSoundEdge).pixel px py = s.pixel px py := rfl
@[simp] theorem clearSoundEdge_readByte (a : Nat) : (s.clearSoundEdge).readByte a = s.readByte a := rfl
@[simp] theorem clearSoundEdge_dataAddr (k : Nat) : (s.clearSoundEdge).dataAddr k = s.dataAddr k := rfl

end

end Sys2Proof.Machine
end

