-- ==== Sys2Proof/Laws/Memory.lean ====
section
/-!
SUPPORT. The laws of memory: a read after a write, the canonical form kept by every write, and the reset contents.
-/

namespace Sys2Proof.Machine

theorem lookup_insert (m : Memory) (a a' : Nat) (b : Byte) :
    Memory.lookup (Memory.insert a b m) a' = if a' = a then some b else Memory.lookup m a' := by
  induction m with
  | nil => simp [Memory.insert, Memory.lookup]
  | cons c rest ih =>
    obtain ⟨k, v⟩ := c
    simp only [Memory.insert]
    split
    · simp [Memory.lookup]
    · split
      · simp only [Memory.lookup]; grind
      · simp only [Memory.lookup, ih]; grind

theorem lookup_erase (m : Memory) (a a' : Nat) :
    Memory.lookup (Memory.erase a m) a' = if a' = a then none else Memory.lookup m a' := by
  induction m with
  | nil => simp [Memory.erase, Memory.lookup]
  | cons c rest ih =>
    obtain ⟨k, v⟩ := c
    simp only [Memory.erase]
    split <;> simp only [Memory.lookup, ih] <;> grind

/-- Everything a write can do to a read: the written byte at its own address, nothing anywhere else. -/
theorem Memory.readByte_writeByte (p : Params) (m : Memory) (a a' : Nat) (b : Byte) :
    Memory.readByte p (Memory.writeByte p m a b) a' = if a' = a then b else Memory.readByte p m a' := by
  unfold Memory.writeByte Memory.readByte
  split
  · next h => rw [lookup_erase]; split <;> simp_all
  · rw [lookup_insert]; split <;> simp_all

/-- `Memory.readByte_writeByte` for the state's memory. -/
theorem readByte_writeByte (s : State) (a a' : Nat) (b : Byte) :
    (s.writeByte a b).readByte a' = if a' = a then b else s.readByte a' :=
  Memory.readByte_writeByte s.params s.mem a a' b

@[simp] theorem readByte_writeByte_self (s : State) (a : Nat) (b : Byte) : (s.writeByte a b).readByte a = b := by
  simp [readByte_writeByte]

theorem readByte_writeByte_ne (s : State) {a a' : Nat} (b : Byte) (h : a' ≠ a) :
    (s.writeByte a b).readByte a' = s.readByte a' := by
  simp [readByte_writeByte, h]

theorem mem_insert {c : Host.Cell} {a : Nat} {b : Byte} {m : Memory} (h : c ∈ Memory.insert a b m) :
    c = (a, b) ∨ c ∈ m := by
  induction m with
  | nil => simpa [Memory.insert] using h
  | cons d rest ih =>
    obtain ⟨k, v⟩ := d
    simp only [Memory.insert] at h
    split at h
    · simpa using h
    · split at h
      · rcases List.mem_cons.1 h with h | h <;> simp [h]
      · rcases List.mem_cons.1 h with h | h
        · simp [h]
        · rcases ih h with h | h <;> simp [h]

theorem mem_erase {c : Host.Cell} {a : Nat} {m : Memory} (h : c ∈ Memory.erase a m) : c ∈ m := by
  induction m with
  | nil => simp [Memory.erase] at h
  | cons d rest ih =>
    obtain ⟨k, v⟩ := d
    simp only [Memory.erase] at h
    split at h
    · exact List.mem_cons_of_mem _ (ih h)
    · rcases List.mem_cons.1 h with h | h
      · simp [h]
      · exact List.mem_cons_of_mem _ (ih h)

theorem pairwise_insert {m : Memory} (a : Nat) (b : Byte) (h : m.Pairwise (fun c d => c.1 < d.1)) :
    (Memory.insert a b m).Pairwise (fun c d => c.1 < d.1) := by
  induction m with
  | nil => simp [Memory.insert]
  | cons d rest ih =>
    obtain ⟨k, v⟩ := d
    obtain ⟨hk, hr⟩ := List.pairwise_cons.1 h
    simp only [Memory.insert]
    split
    · next hlt =>
      refine List.pairwise_cons.2 ⟨fun c hc => ?_, h⟩
      rcases List.mem_cons.1 hc with rfl | hc
      · exact hlt
      · exact Nat.lt_trans hlt (hk c hc)
    · split
      · next _ heq => subst heq; exact List.pairwise_cons.2 ⟨hk, hr⟩
      · next hnlt hne =>
        refine List.pairwise_cons.2 ⟨fun c hc => ?_, ih hr⟩
        rcases mem_insert hc with rfl | hc
        · show k < a; omega
        · exact hk c hc

theorem pairwise_erase {m : Memory} (a : Nat) (h : m.Pairwise (fun c d => c.1 < d.1)) :
    (Memory.erase a m).Pairwise (fun c d => c.1 < d.1) := by
  induction m with
  | nil => simp [Memory.erase]
  | cons d rest ih =>
    obtain ⟨k, v⟩ := d
    obtain ⟨hk, hr⟩ := List.pairwise_cons.1 h
    simp only [Memory.erase]
    split
    · exact ih hr
    · exact List.pairwise_cons.2 ⟨fun c hc => hk c (mem_erase hc), ih hr⟩

/-- A write to an address that exists keeps the canonical form. -/
theorem Memory.wf_writeByte {p : Params} {m : Memory} {a : Nat} (b : Byte) (h : Memory.wf p m) (ha : a ≤ addrMax) :
    Memory.wf p (Memory.writeByte p m a b) := by
  unfold Memory.writeByte
  split
  · exact ⟨pairwise_erase a h.1, fun c hc => h.2 c (mem_erase hc)⟩
  · next hb =>
    refine ⟨pairwise_insert a b h.1, fun c hc => ?_⟩
    rcases mem_insert hc with rfl | hc
    · exact ⟨ha, hb⟩
    · exact h.2 c hc

/-- The empty list, the memory of reset, is canonical. -/
theorem Memory.wf_nil (p : Params) : Memory.wf p [] := by simp [Memory.wf]

@[simp] theorem readByte_resetWith (p : Params) (a : Nat) : (State.resetWith p).readByte a = resetByte p a := rfl

theorem lookup_of_mem {m : Memory} {a : Nat} {b : Byte} (h : m.Pairwise (fun c d => c.1 < d.1)) (hm : (a, b) ∈ m) :
    Memory.lookup m a = some b := by
  induction m with
  | nil => simp at hm
  | cons d rest ih =>
    obtain ⟨k, v⟩ := d
    obtain ⟨hk, hr⟩ := List.pairwise_cons.1 h
    rcases List.mem_cons.1 hm with heq | hm
    · cases heq; simp [Memory.lookup]
    · have hlt : k < a := hk _ hm
      simp only [Memory.lookup]
      rw [if_neg (by omega)]
      exact ih hr hm

theorem mem_of_lookup {m : Memory} {a : Nat} {b : Byte} (h : Memory.lookup m a = some b) : (a, b) ∈ m := by
  induction m with
  | nil => simp [Memory.lookup] at h
  | cons d rest ih =>
    obtain ⟨k, v⟩ := d
    simp only [Memory.lookup] at h
    split at h
    · next heq => cases h; simp [heq]
    · exact List.mem_cons_of_mem _ (ih h)

theorem mem_of_readByte_eq {p : Params} {m m' : Memory} (hm : Memory.wf p m)
    (h : ∀ a, Memory.readByte p m a = Memory.readByte p m' a) {c : Host.Cell} (hc : c ∈ m) : c ∈ m' := by
  obtain ⟨a, b⟩ := c
  have hl := lookup_of_mem hm.1 hc
  have hb : b ≠ resetByte p a := (hm.2 _ hc).2
  have hr := h a
  simp only [Memory.readByte, hl, Option.getD_some] at hr
  cases hl' : Memory.lookup m' a with
  | none => simp [hl'] at hr; exact absurd hr hb
  | some b' => simp [hl'] at hr; subst hr; exact mem_of_lookup hl'

/-- Equal memories are equal data: two canonical lists that read alike at every address are the same list. -/
theorem Memory.ext_of_wf {p : Params} {m m' : Memory} (hm : Memory.wf p m) (hm' : Memory.wf p m')
    (h : ∀ a, Memory.readByte p m a = Memory.readByte p m' a) : m = m' := by
  have hnd : ∀ {l : Memory}, l.Pairwise (fun c d => c.1 < d.1) → l.Nodup := fun hl =>
    hl.imp fun hlt heq => by rw [heq] at hlt; exact Nat.lt_irrefl _ hlt
  refine List.Perm.eq_of_pairwise (le := fun c d => c.1 < d.1) (fun a b _ _ h₁ h₂ => absurd h₁ (by omega)) hm.1 hm'.1 ?_
  exact (List.perm_ext_iff_of_nodup (hnd hm.1) (hnd hm'.1)).2 fun c =>
    ⟨mem_of_readByte_eq hm h, mem_of_readByte_eq hm' fun a => (h a).symm⟩

end Sys2Proof.Machine
end

