-- ==== Sys2Proof/Laws/Ops.lean ====
section
/-!
SUPPORT. One lemma for each shared operation that says everything it can do: registers, the call stack, the tick, the draw, the
transfers of a register range, host loads.
-/

namespace Sys2Proof.Machine

/-! ### Registers -/

/-- Everything a register write can do to a register read. -/
theorem reg_setReg (s : State) (r q : Reg) (b : Byte) : (s.setReg r b).reg q = if q = r then b else s.reg q := by
  simp only [State.reg, State.setReg, Vector.getElem_set]
  rcases eq_or_ne q r with rfl | h
  · simp
  · rw [if_neg h, if_neg (fun h' => h (Fin.ext h'.symm))]

@[simp] theorem reg_setReg_self (s : State) (r : Reg) (b : Byte) : (s.setReg r b).reg r = b := by simp [reg_setReg]

theorem reg_setReg_ne (s : State) {r q : Reg} (b : Byte) (h : q ≠ r) : (s.setReg r b).reg q = s.reg q := by
  simp [reg_setReg, h]

/-! ### Numbers of the literals and sums -/

@[simp] theorem wordOfNnn_toNat (nnn : BitVec 12) : (wordOfNnn nnn).toNat = nnn.toNat := by
  simp only [wordOfNnn, BitVec.toNat_setWidth]; have := nnn.isLt; omega

@[simp] theorem wordOfByte_toNat (b : Byte) : (wordOfByte b).toNat = b.toNat := by
  simp only [wordOfByte, BitVec.toNat_setWidth]; have := b.isLt; omega

theorem flagByte_toNat (b : Bool) : (flagByte b).toNat = if b = true then 1 else 0 := by cases b <;> rfl

theorem countDown_toNat (b : Byte) : (countDown b).toNat = b.toNat - 1 := by
  unfold countDown; split
  · next h => subst h; rfl
  · next h => have : b.toNat ≠ 0 := fun h' => h (BitVec.eq_of_toNat_eq (by simpa using h')); bv_omega

theorem drawValue_le (m : RandomMax) (b : Byte) : (drawValue m b).toNat ≤ m.toNat := by
  cases m
  · have := b.isLt; simp only [drawValue, RandomMax.toNat]; omega
  · have h := Nat.mod_lt b.toNat (show 255 > 0 by omega)
    simp only [drawValue, RandomMax.toNat, BitVec.toNat_umod]; show b.toNat % 255 ≤ 254; omega

/-! ### Sums of pc and I, mod 65536 (R23, R24) -/

theorem word_add_toNat (w : Word) (k : Nat) : (w + BitVec.ofNat 16 k).toNat = (w.toNat + k) % 65536 := by
  simp [BitVec.toNat_add]

theorem advance_pc_toNat (s : State) : s.advance.pc.toNat = (s.pc.toNat + 2) % 65536 := word_add_toNat s.pc 2

theorem skipIf_pc_toNat (s : State) (c : Bool) :
    (s.skipIf c).pc.toNat = (s.pc.toNat + if c = true then 4 else 2) % 65536 := by
  cases c
  · exact word_add_toNat s.pc 2
  · exact word_add_toNat s.pc 4

/-! ### Call stack -/

/-- A push on a stack that is not full: one more entry, the pushed word on top, the other slots as they were. -/
theorem push_of_lt (s : State) (w : Word) (h : s.sp.val < 16) :
    ∃ t, s.push w = some t ∧ t = { s with stack := t.stack, sp := t.sp } ∧ t.sp.val = s.sp.val + 1 ∧
      ∀ j, t.slot j = if j.val = s.sp.val then w else s.slot j := by
  refine ⟨_, by rw [State.push, dif_pos h], rfl, rfl, fun j => ?_⟩
  simp only [State.slot, Vector.getElem_set]
  rcases eq_or_ne s.sp.val j.val with hj | hj
  · rw [if_pos hj, if_pos hj.symm]
  · rw [if_neg hj, if_neg (Ne.symm hj)]

theorem push_of_full (s : State) (w : Word) (h : s.sp.val = 16) : s.push w = none := by
  rw [State.push, dif_neg (by omega)]

/-- A pop of a stack with `j + 1` entries: slot `j` is answered and keeps its value. -/
theorem pop_of_eq (s : State) (j : Fin 16) (h : s.sp.val = j.val + 1) :
    s.pop = some ({ s with sp := ⟨j.val, by omega⟩ }, s.slot j) := by
  rw [State.pop, dif_pos (by omega)]
  have e : s.sp.val - 1 = j.val := by omega
  simp only [e, State.slot]

theorem pop_of_empty (s : State) (h : s.sp.val = 0) : s.pop = none := by
  rw [State.pop, dif_neg (by omega)]

/-! ### Register ranges -/

@[simp] theorem mem_regsUpTo (x k : Reg) : k ∈ regsUpTo x ↔ k.val ≤ x.val := by simp [regsUpTo]

theorem nodup_regsUpTo (x : Reg) : (regsUpTo x).Nodup := (List.nodup_finRange 16).filter _

/-- What a run of stores leaves as it was: any reading that no single store changes. -/
theorem foldl_writeByte_keeps {α β : Type} (f : State → β) (hf : ∀ t a b, f (t.writeByte a b) = f t) (addr : α → Nat)
    (val : α → Byte) (rs : List α) (t : State) :
    f (rs.foldl (fun u k => u.writeByte (addr k) (val k)) t) = f t := by
  induction rs generalizing t with
  | nil => rfl
  | cons k rest ih => rw [List.foldl_cons, ih, hf]

theorem foldl_setReg_keeps {β : Type} (f : State → β) (hf : ∀ t r b, f (t.setReg r b) = f t) (val : Reg → Byte)
    (rs : List Reg) (t : State) : f (rs.foldl (fun u k => u.setReg k (val k)) t) = f t := by
  induction rs generalizing t with
  | nil => rfl
  | cons k rest ih => rw [List.foldl_cons, ih, hf]

/-- A byte outside the stored addresses reads as before. -/
theorem readByte_foldl_ne {α : Type} (addr : α → Nat) (val : α → Byte) (rs : List α) (t : State) (a : Nat)
    (h : ∀ k ∈ rs, a ≠ addr k) :
    (rs.foldl (fun u k => u.writeByte (addr k) (val k)) t).readByte a = t.readByte a := by
  induction rs generalizing t with
  | nil => rfl
  | cons k rest ih =>
    rw [List.foldl_cons, ih _ fun j hj => h j (List.mem_cons_of_mem _ hj)]
    exact readByte_writeByte_ne t _ (h k (by simp))

/-- A byte at a stored address reads as what was stored there, when no two stores share an address. -/
theorem readByte_foldl_mem {α : Type} (addr : α → Nat) (hinj : Function.Injective addr) (val : α → Byte) {rs : List α}
    (hnd : rs.Nodup) (t : State) {k : α} (hk : k ∈ rs) :
    (rs.foldl (fun u j => u.writeByte (addr j) (val j)) t).readByte (addr k) = val k := by
  induction rs generalizing t with
  | nil => simp at hk
  | cons j rest ih =>
    rw [List.foldl_cons]
    rcases List.mem_cons.1 hk with rfl | hk
    · rw [readByte_foldl_ne addr val rest _ (addr k) fun i hi he =>
        (List.nodup_cons.1 hnd).1 (hinj he ▸ hi)]
      simp
    · exact ih (List.nodup_cons.1 hnd).2 _ hk

theorem dataAddr_injective (s : State) : Function.Injective fun k : Reg => s.dataAddr k.val := by
  intro j k h; exact Fin.ext (Nat.add_left_cancel h)

/-- The bytes FX55 stores (R144). -/
theorem readByte_storeRegs (s : State) (x k : Reg) (h : k.val ≤ x.val) :
    (s.storeRegs (regsUpTo x)).readByte (s.dataAddr k.val) = s.reg k :=
  readByte_foldl_mem (fun k : Reg => s.dataAddr k.val) (dataAddr_injective s) s.reg (nodup_regsUpTo x) s
    ((mem_regsUpTo x k).2 h)

/-- The bytes FX55 does not store (R144). -/
theorem readByte_storeRegs_ne (s : State) (rs : List Reg) (a : Nat) (h : ∀ k ∈ rs, a ≠ s.dataAddr k.val) :
    (s.storeRegs rs).readByte a = s.readByte a :=
  readByte_foldl_ne (fun k : Reg => s.dataAddr k.val) s.reg rs s a h

/-- Nothing but memory changes in a run of stores. -/
theorem storeRegs_eq (s : State) (rs : List Reg) : s.storeRegs rs = { s with mem := (s.storeRegs rs).mem } := by
  have key : ({ s.storeRegs rs with mem := [] } : State) = { s with mem := [] } :=
    foldl_writeByte_keeps (fun t => ({ t with mem := [] } : State)) (fun _ _ _ => rfl) (fun k : Reg => s.dataAddr k.val)
      s.reg rs s
  have := congrArg (fun t : State => ({ t with mem := (s.storeRegs rs).mem } : State)) key
  exact this

/-- Nothing but the registers changes in a run of loads. -/
theorem loadRegs_eq (s : State) (rs : List Reg) : s.loadRegs rs = { s with v := (s.loadRegs rs).v } := by
  have key : ({ s.loadRegs rs with v := s.v } : State) = { s with v := s.v } :=
    foldl_setReg_keeps (fun t => ({ t with v := s.v } : State)) (fun _ _ _ => rfl)
      (fun k : Reg => s.readByte (s.dataAddr k.val)) rs s
  have := congrArg (fun t : State => ({ t with v := (s.loadRegs rs).v } : State)) key
  exact this

theorem reg_foldl_setReg (val : Reg → Byte) (rs : List Reg) (t : State) (q : Reg) :
    (rs.foldl (fun u k => u.setReg k (val k)) t).reg q = if q ∈ rs then val q else t.reg q := by
  induction rs generalizing t with
  | nil => simp
  | cons k rest ih =>
    rw [List.foldl_cons, ih, reg_setReg]
    by_cases h : q ∈ rest
    · simp [h]
    · by_cases hk : q = k
      · subst hk; simp
      · simp [h, hk]

/-- The registers after FX65's loads (R145). -/
theorem reg_loadRegs (s : State) (x q : Reg) :
    (s.loadRegs (regsUpTo x)).reg q = if q.val ≤ x.val then s.readByte (s.dataAddr q.val) else s.reg q := by
  rw [State.loadRegs, reg_foldl_setReg]; simp

/-- A run of stores to addresses that exist keeps memory canonical. -/
theorem wf_foldl_writeByte {α : Type} {p : Params} (addr : α → Nat) (val : α → Byte) (rs : List α) (t : State)
    (hp : t.params = p) (hw : Memory.wf p t.mem) (h : ∀ k ∈ rs, addr k ≤ addrMax) :
    Memory.wf p (rs.foldl (fun u k => u.writeByte (addr k) (val k)) t).mem := by
  induction rs generalizing t with
  | nil => exact hw
  | cons k rest ih =>
    rw [List.foldl_cons]
    refine ih _ (by simpa using hp) ?_ fun j hj => h j (List.mem_cons_of_mem _ hj)
    subst hp
    exact Memory.wf_writeByte _ hw (h k (by simp))

/-- The range check of a data access (R55). -/
theorem dataOutOfRange_iff (s : State) (k : Nat) : s.dataOutOfRange k = true ↔ s.index.toNat + k > 0xFFF := by
  rw [State.dataOutOfRange, decide_eq_true_eq]; rfl

/-- The font check of a store at I (R52). -/
theorem fontForbids_iff (s : State) :
    s.fontForbids = true ↔ s.params.fontWrite = .fault ∧ s.index.toNat ≤ 0x04F := by
  rw [State.fontForbids, inFont, Bool.and_eq_true, decide_eq_true_eq, decide_eq_true_eq]
  exact and_congr_right fun _ => Nat.lt_succ_iff

/-! ### Host loads -/

theorem copyBytes_eq (s : State) (a : Nat) (bs : List Byte) :
    s.copyBytes a bs = { s with mem := (s.copyBytes a bs).mem } := by
  induction bs generalizing s a with
  | nil => rfl
  | cons b rest ih => rw [State.copyBytes, ih]; rfl

/-- What a copied image reads as, and that nothing else is touched (R232). -/
theorem readByte_copyBytes (s : State) (a : Nat) (bs : List Byte) (c : Nat) :
    (s.copyBytes a bs).readByte c = if h : a ≤ c ∧ c < a + bs.length then bs[c - a]'(by omega) else s.readByte c := by
  induction bs generalizing s a with
  | nil => rw [dif_neg (by simp)]; rfl
  | cons b rest ih =>
    rw [State.copyBytes, ih]
    by_cases h : a + 1 ≤ c ∧ c < a + 1 + rest.length
    · rw [dif_pos h, dif_pos (by simp; omega)]
      have e : c - a = (c - (a + 1)) + 1 := by omega
      simp only [e, List.getElem_cons_succ]
    · rw [dif_neg h, readByte_writeByte]
      by_cases hc : c = a
      · subst hc; rw [if_pos rfl, dif_pos (by simp)]; simp
      · rw [if_neg hc, dif_neg (by simp; omega)]

theorem wf_copyBytes (s : State) (a : Nat) (bs : List Byte) (hw : Memory.wf s.params s.mem)
    (h : a + bs.length ≤ addrMax + 1) : Memory.wf s.params (s.copyBytes a bs).mem := by
  induction bs generalizing s a with
  | nil => exact hw
  | cons b rest ih =>
    simp only [List.length_cons] at h
    exact ih (s.writeByte a b) (a + 1) (Memory.wf_writeByte b hw (by omega)) (by omega)

/-! ### Keys -/

theorem keyAt_of_lt (s : State) (b : Byte) (k : Fin 16) (h : b.toNat = k.val) : s.keyAt b = some s.key[k.val] := by
  rw [State.keyAt, dif_pos (by omega)]; simp only [h]

theorem keyAt_of_ge (s : State) (b : Byte) (h : b.toNat > 0xF) : s.keyAt b = none := by
  rw [State.keyAt, dif_neg (by omega)]

theorem firstKey_none_iff (s : State) : s.firstKey = none ↔ ∀ k : Fin 16, s.key[k.val] = false := by
  simp [State.firstKey]

/-- The key found is pressed, and no lower one is. -/
theorem firstKey_eq_some (s : State) (k : Fin 16) (h : s.key[k.val] = true)
    (hl : ∀ j : Fin 16, j < k → s.key[j.val] = false) : s.firstKey = some k := by
  unfold State.firstKey
  rw [List.find?_eq_some_iff_getElem]
  exact ⟨h, k.val, by simp, by simp, fun j hj => by simp [hl ⟨j, by omega⟩ hj]⟩

end Sys2Proof.Machine
end

