-- ==== Sys2Proof/Laws/Graphics.lean ====
section
/-!
SUPPORT. Pixels and sprites: a toggled pixel, the pixel loop over distinct targets, and which targets a sprite has.
-/

namespace Sys2Proof.Machine

/-- Everything a toggle can do to a pixel. -/
theorem pixel_toggle (fb : Framebuffer) (x px : Fin 64) (y py : Fin 32) :
    Framebuffer.pixel (Framebuffer.toggle fb x y) px py =
      if (px, py) = (x, y) then !Framebuffer.pixel fb px py else Framebuffer.pixel fb px py := by
  unfold Framebuffer.toggle Framebuffer.pixel
  simp only [Prod.mk.injEq]
  by_cases hy : py = y
  · subst hy
    by_cases hx : px = x
    · subst hx; simp
    · simp [hx, Vector.getElem_set_ne _ _ (fun h => hx (Fin.ext h.symm))]
  · simp [hy, Vector.getElem_set_ne _ _ (fun h => hy (Fin.ext h.symm))]

@[simp] theorem pixel_blank (px : Fin 64) (py : Fin 32) : Framebuffer.pixel blankScreen px py = false := by
  simp [Framebuffer.pixel, blankScreen]

/-- The pixel loop over distinct targets inverts exactly the targets. -/
theorem pixel_plot (ps : List (Fin 64 × Fin 32)) (hnd : ps.Nodup) (fb : Framebuffer) (hit : Bool) (px : Fin 64)
    (py : Fin 32) : Framebuffer.pixel (plot ps (fb, hit)).1 px py =
      if (px, py) ∈ ps then !Framebuffer.pixel fb px py else Framebuffer.pixel fb px py := by
  induction ps generalizing fb hit with
  | nil => simp [plot]
  | cons p rest ih =>
    obtain ⟨hp, hr⟩ := List.nodup_cons.1 hnd
    rw [plot, ih hr, pixel_toggle]
    by_cases hin : (px, py) ∈ rest
    · have hne : ¬ (px, py) = (p.1, p.2) := fun h => hp ((show (px, py) = p from h) ▸ hin)
      rw [if_pos hin, if_neg hne, if_pos (List.mem_cons_of_mem _ hin)]
    · by_cases he : (px, py) = (p.1, p.2)
      · rw [if_neg hin, if_pos he, if_pos (by rw [he]; simp)]
      · rw [if_neg hin, if_neg he, if_neg (by simp only [List.mem_cons, not_or]; exact ⟨he, hin⟩)]

/-- The pixel loop over distinct targets reports a hit exactly when one of them was on before it. -/
theorem hit_plot (ps : List (Fin 64 × Fin 32)) (hnd : ps.Nodup) (fb : Framebuffer) (hit : Bool) :
    (plot ps (fb, hit)).2 = true ↔ hit = true ∨ ∃ p ∈ ps, Framebuffer.pixel fb p.1 p.2 = true := by
  induction ps generalizing fb hit with
  | nil => simp [plot]
  | cons p rest ih =>
    obtain ⟨hp, hr⟩ := List.nodup_cons.1 hnd
    have hsame : ∀ q ∈ rest, Framebuffer.pixel (Framebuffer.toggle fb p.1 p.2) q.1 q.2 = Framebuffer.pixel fb q.1 q.2 :=
      fun q hq => by rw [pixel_toggle, if_neg (fun h : (q.1, q.2) = (p.1, p.2) => hp ((show q = p from h) ▸ hq))]
    rw [plot, ih hr]
    constructor
    · rintro (h | ⟨q, hq, h⟩)
      · rcases Bool.or_eq_true _ _ ▸ h with h | h
        · exact .inl h
        · exact .inr ⟨p, by simp, h⟩
      · exact .inr ⟨q, List.mem_cons_of_mem _ hq, by rwa [hsame q hq] at h⟩
    · rintro (h | ⟨q, hq, h⟩)
      · exact .inl (by simp [h])
      · rcases List.mem_cons.1 hq with rfl | hq
        · exact .inl (by simp [h])
        · exact .inr ⟨q, hq, by rwa [hsame q hq]⟩

/-- The coordinates of a sprite's set bits (R161). -/
theorem mem_spriteBits (s : State) (ox oy n : Nat) (p : Nat × Nat) :
    p ∈ s.spriteBits ox oy n ↔ ∃ r c, r < n ∧ c < 8 ∧ (s.readByte (s.index.toNat + r)).getLsbD (7 - c) = true ∧
      p = (ox + c, oy + r) := by
  simp only [State.spriteBits, List.mem_flatMap, List.mem_range, List.mem_filterMap, Option.ite_none_right_eq_some,
    Option.some.injEq]
  constructor
  · rintro ⟨r, hr, c, hc, hb, rfl⟩; exact ⟨r, c, hr, hc, hb, rfl⟩
  · rintro ⟨r, c, hr, hc, hb, rfl⟩; exact ⟨r, hr, c, hc, hb, rfl⟩

theorem nodup_spriteBits (s : State) (ox oy n : Nat) : (s.spriteBits ox oy n).Nodup := by
  unfold State.spriteBits
  rw [List.nodup_flatMap]
  refine ⟨fun r _ => ?_, List.nodup_range.imp fun {r r'} hne => ?_⟩
  · refine List.Nodup.filterMap (fun c c' p h h' => ?_) List.nodup_range
    split at h <;> split at h' <;> simp_all [Prod.ext_iff]
    omega
  · intro p hp hp'
    simp only [List.mem_filterMap] at hp hp'
    obtain ⟨c, -, h⟩ := hp
    obtain ⟨c', -, h'⟩ := hp'
    split at h <;> split at h' <;> simp_all [Prod.ext_iff]
    omega

/-- `target` answers exactly the pixel a bit lands on (R162). -/
theorem spriteTarget_eq_some (pol : SpriteOobPolicy) (ox oy r c : Nat) (px : Fin 64) (py : Fin 32) :
    spriteTarget pol (ox + c, oy + r) = some (px, py) ↔ Lands pol ox oy r c px py := by
  cases pol
  · simp only [spriteTarget, Lands]
    split
    · simp [Prod.ext_iff, Fin.ext_iff]
    · next h => constructor
                · intro h'; cases h'
                · intro ⟨h₁, h₂⟩; exact absurd ⟨by have := px.isLt; omega, by have := py.isLt; omega⟩ h
  · simp [spriteTarget, Lands, Prod.ext_iff, Fin.ext_iff]
  · simp only [spriteTarget, Lands]
    split
    · simp [Prod.ext_iff, Fin.ext_iff]
    · next h => constructor
                · intro h'; cases h'
                · intro ⟨h₁, h₂⟩; exact absurd ⟨by have := px.isLt; omega, by have := py.isLt; omega⟩ h

/-- The targets of DRW's set bits, in the order of the pixel loop. -/
def drawTargets (s : State) (x y : Reg) (n : BitVec 4) : List (Fin 64 × Fin 32) :=
  (s.spriteBits (s.reg x).toNat (s.reg y).toNat n.toNat).filterMap (spriteTarget s.params.sprite)

theorem mem_drawTargets (s : State) (x y : Reg) (n : BitVec 4) (px : Fin 64) (py : Fin 32) :
    (px, py) ∈ drawTargets s x y n ↔ Covers s x y n px py := by
  simp only [drawTargets, List.mem_filterMap, mem_spriteBits, Covers, SpriteSet]
  constructor
  · rintro ⟨p, ⟨r, c, hr, hc, hb, rfl⟩, h⟩
    exact ⟨r, c, ⟨hr, hc, hb⟩, (spriteTarget_eq_some _ _ _ _ _ _ _).1 h⟩
  · rintro ⟨r, c, ⟨hr, hc, hb⟩, h⟩
    exact ⟨_, ⟨r, c, hr, hc, hb, rfl⟩, (spriteTarget_eq_some _ _ _ _ _ _ _).2 h⟩

/-- "A sprite 8 wide and at most 15 tall never covers one pixel twice under any policy" (R161). -/
theorem nodup_drawTargets (s : State) (x y : Reg) (n : BitVec 4) : (drawTargets s x y n).Nodup := by
  unfold drawTargets List.Nodup
  rw [List.pairwise_filterMap]
  refine (nodup_spriteBits s _ _ _).imp_of_mem ?_
  intro p p' hp hp' hne q hq q' hq' heq
  subst heq
  obtain ⟨r, c, hr, hc, -, rfl⟩ := (mem_spriteBits _ _ _ _ _).1 hp
  obtain ⟨r', c', hr', hc', -, rfl⟩ := (mem_spriteBits _ _ _ _ _).1 hp'
  have h := (spriteTarget_eq_some _ _ _ _ _ q.1 q.2).1 hq
  have h' := (spriteTarget_eq_some _ _ _ _ _ q.1 q.2).1 hq'
  have hn := n.isLt
  apply hne
  cases hpol : s.params.sprite <;> simp only [hpol, Lands] at h h' <;> simp only [Prod.mk.injEq] <;> omega

theorem onScreen_iff (p : Nat × Nat) : onScreen p = true ↔ p.1 < 64 ∧ p.2 < 32 := by
  simp [onScreen]

/-- DRW's test for a set bit off the grid (R162). -/
theorem all_onScreen_iff (s : State) (x y : Reg) (n : BitVec 4) :
    (s.spriteBits (s.reg x).toNat (s.reg y).toNat n.toNat).all onScreen = true ↔ SpriteOnScreen s x y n := by
  simp only [List.all_eq_true, mem_spriteBits, onScreen_iff, SpriteOnScreen, SpriteSet]
  constructor
  · intro h r c ⟨hr, hc, hb⟩; exact h _ ⟨r, c, hr, hc, hb, rfl⟩
  · rintro h p ⟨r, c, hr, hc, hb, rfl⟩; exact h r c ⟨hr, hc, hb⟩

/-- DRW's test for a sprite byte beyond memory (R55, R161). -/
theorem spriteUnreadable_iff (s : State) (n : BitVec 4) :
    (1 ≤ n.toNat ∧ s.dataOutOfRange (n.toNat - 1) = true) ↔ ¬ SpriteReadable s n := by
  rw [State.dataOutOfRange, decide_eq_true_eq, State.dataAddr, SpriteReadable, addrMax]; omega

end Sys2Proof.Machine
end

