-- ==== Sys2Proof/Laws/PerInstr.lean ====
section
/-!
SUPPORT. One lemma per constructor of Instr: its operands are in range, and its word is one of the opcode table's row of its own
name (spec/30_encoding.md R73).
-/

namespace Sys2Proof

/-! ### The rows by shape -/

theorem holds_packNnn (m : String) (f : BitVec 4) (nnn : BitVec 12) :
    OpcodeRow.holds ⟨packNnn f 0, 0xF000, m⟩ (packNnn f nnn) = true := by
  rw [OpcodeRow.holds, beq_iff_eq, and_F000_eq_iff, famField_packNnn]

theorem holds_packXnn (m : String) (f : BitVec 4) (x : Reg) (nn : Byte) :
    OpcodeRow.holds ⟨packNnn f 0, 0xF000, m⟩ (packXnn f x nn) = true := by
  rw [OpcodeRow.holds, beq_iff_eq, and_F000_eq_iff, famField_packXnn]

theorem holds_packXyn (m : String) (f : BitVec 4) (x y : Reg) (n : BitVec 4) :
    OpcodeRow.holds ⟨packNnn f 0, 0xF000, m⟩ (packXyn f x y n) = true := by
  rw [OpcodeRow.holds, beq_iff_eq, and_F000_eq_iff, famField_packXyn]

theorem holds_packXyn_low (m : String) (f : BitVec 4) (x y : Reg) (n : BitVec 4) :
    OpcodeRow.holds ⟨packXyn f 0 0 n, 0xF00F, m⟩ (packXyn f x y n) = true := by
  rw [OpcodeRow.holds, beq_iff_eq, and_F00F_eq_iff, famField_packXyn, nField_packXyn]; exact ⟨rfl, rfl⟩

theorem holds_packXnn_low (m : String) (f : BitVec 4) (x : Reg) (nn : Byte) :
    OpcodeRow.holds ⟨packXnn f 0 nn, 0xF0FF, m⟩ (packXnn f x nn) = true := by
  rw [OpcodeRow.holds, beq_iff_eq, and_F0FF_eq_iff, famField_packXnn, nnField_packXnn]; exact ⟨rfl, rfl⟩

end Sys2Proof

namespace Sys2Proof.Laws.EncodesItsRow

/-- The instruction is well formed, and its word is one of the row of its own name. -/
def Statement (i : Instr) : Prop :=
  i.wellFormed = true ∧ ∃ r ∈ opcodeTable, r.mnemonic = i.mnemonic ∧ r.holds (encodeWord i) = true

/-- The statement from a row of the table. -/
theorem of_row {i : Instr} (r : OpcodeRow) (hw : i.wellFormed = true) (hm : r ∈ opcodeTable)
    (hn : r.mnemonic = i.mnemonic) (hr : r.holds (encodeWord i) = true) : Statement i := ⟨hw, r, hm, hn, hr⟩

theorem cls : Statement .cls :=
  of_row ⟨0x00E0, 0xFFFF, "CLS"⟩ (rfl) (by decide) rfl (rfl)

theorem ret : Statement .ret :=
  of_row ⟨0x00EE, 0xFFFF, "RET"⟩ (rfl) (by decide) rfl (rfl)

theorem jp (nnn : BitVec 12) : Statement (.jp nnn) :=
  of_row ⟨packNnn 0x1 0, 0xF000, "JP"⟩ (by simp [Instr.wellFormed, nnn.isLt]) (by decide) rfl (holds_packNnn _ _ _)

theorem call (nnn : BitVec 12) : Statement (.call nnn) :=
  of_row ⟨packNnn 0x2 0, 0xF000, "CALL"⟩ (by simp [Instr.wellFormed, nnn.isLt]) (by decide) rfl (holds_packNnn _ _ _)

theorem seVxNn (x : Reg) (nn : Byte) : Statement (.seVxNn x nn) :=
  of_row ⟨packNnn 0x3 0, 0xF000, "SE_VX_NN"⟩ (by simp [Instr.wellFormed, x.isLt, nn.isLt]) (by decide) rfl (holds_packXnn _ _ _ _)

theorem sneVxNn (x : Reg) (nn : Byte) : Statement (.sneVxNn x nn) :=
  of_row ⟨packNnn 0x4 0, 0xF000, "SNE_VX_NN"⟩ (by simp [Instr.wellFormed, x.isLt, nn.isLt]) (by decide) rfl (holds_packXnn _ _ _ _)

theorem seVxVy (x y : Reg) : Statement (.seVxVy x y) :=
  of_row ⟨packXyn 0x5 0 0 0x0, 0xF00F, "SE_VX_VY"⟩ (by simp [Instr.wellFormed, x.isLt, y.isLt]) (by decide) rfl (holds_packXyn_low _ _ _ _ _)

theorem ldVxNn (x : Reg) (nn : Byte) : Statement (.ldVxNn x nn) :=
  of_row ⟨packNnn 0x6 0, 0xF000, "LD_VX_NN"⟩ (by simp [Instr.wellFormed, x.isLt, nn.isLt]) (by decide) rfl (holds_packXnn _ _ _ _)

theorem addVxNn (x : Reg) (nn : Byte) : Statement (.addVxNn x nn) :=
  of_row ⟨packNnn 0x7 0, 0xF000, "ADD_VX_NN"⟩ (by simp [Instr.wellFormed, x.isLt, nn.isLt]) (by decide) rfl (holds_packXnn _ _ _ _)

theorem ldVxVy (x y : Reg) : Statement (.ldVxVy x y) :=
  of_row ⟨packXyn 0x8 0 0 0x0, 0xF00F, "LD_VX_VY"⟩ (by simp [Instr.wellFormed, x.isLt, y.isLt]) (by decide) rfl (holds_packXyn_low _ _ _ _ _)

theorem or (x y : Reg) : Statement (.or x y) :=
  of_row ⟨packXyn 0x8 0 0 0x1, 0xF00F, "OR"⟩ (by simp [Instr.wellFormed, x.isLt, y.isLt]) (by decide) rfl (holds_packXyn_low _ _ _ _ _)

theorem and (x y : Reg) : Statement (.and x y) :=
  of_row ⟨packXyn 0x8 0 0 0x2, 0xF00F, "AND"⟩ (by simp [Instr.wellFormed, x.isLt, y.isLt]) (by decide) rfl (holds_packXyn_low _ _ _ _ _)

theorem xor (x y : Reg) : Statement (.xor x y) :=
  of_row ⟨packXyn 0x8 0 0 0x3, 0xF00F, "XOR"⟩ (by simp [Instr.wellFormed, x.isLt, y.isLt]) (by decide) rfl (holds_packXyn_low _ _ _ _ _)

theorem addVxVy (x y : Reg) : Statement (.addVxVy x y) :=
  of_row ⟨packXyn 0x8 0 0 0x4, 0xF00F, "ADD_VX_VY"⟩ (by simp [Instr.wellFormed, x.isLt, y.isLt]) (by decide) rfl (holds_packXyn_low _ _ _ _ _)

theorem sub (x y : Reg) : Statement (.sub x y) :=
  of_row ⟨packXyn 0x8 0 0 0x5, 0xF00F, "SUB"⟩ (by simp [Instr.wellFormed, x.isLt, y.isLt]) (by decide) rfl (holds_packXyn_low _ _ _ _ _)

theorem shr (x y : Reg) : Statement (.shr x y) :=
  of_row ⟨packXyn 0x8 0 0 0x6, 0xF00F, "SHR"⟩ (by simp [Instr.wellFormed, x.isLt, y.isLt]) (by decide) rfl (holds_packXyn_low _ _ _ _ _)

theorem subn (x y : Reg) : Statement (.subn x y) :=
  of_row ⟨packXyn 0x8 0 0 0x7, 0xF00F, "SUBN"⟩ (by simp [Instr.wellFormed, x.isLt, y.isLt]) (by decide) rfl (holds_packXyn_low _ _ _ _ _)

theorem shl (x y : Reg) : Statement (.shl x y) :=
  of_row ⟨packXyn 0x8 0 0 0xE, 0xF00F, "SHL"⟩ (by simp [Instr.wellFormed, x.isLt, y.isLt]) (by decide) rfl (holds_packXyn_low _ _ _ _ _)

theorem sneVxVy (x y : Reg) : Statement (.sneVxVy x y) :=
  of_row ⟨packXyn 0x9 0 0 0x0, 0xF00F, "SNE_VX_VY"⟩ (by simp [Instr.wellFormed, x.isLt, y.isLt]) (by decide) rfl (holds_packXyn_low _ _ _ _ _)

theorem ldINnn (nnn : BitVec 12) : Statement (.ldINnn nnn) :=
  of_row ⟨packNnn 0xA 0, 0xF000, "LD_I_NNN"⟩ (by simp [Instr.wellFormed, nnn.isLt]) (by decide) rfl (holds_packNnn _ _ _)

theorem jpV0 (nnn : BitVec 12) : Statement (.jpV0 nnn) :=
  of_row ⟨packNnn 0xB 0, 0xF000, "JP_V0"⟩ (by simp [Instr.wellFormed, nnn.isLt]) (by decide) rfl (holds_packNnn _ _ _)

theorem rnd (x : Reg) (nn : Byte) : Statement (.rnd x nn) :=
  of_row ⟨packNnn 0xC 0, 0xF000, "RND"⟩ (by simp [Instr.wellFormed, x.isLt, nn.isLt]) (by decide) rfl (holds_packXnn _ _ _ _)

theorem drw (x y : Reg) (n : BitVec 4) : Statement (.drw x y n) :=
  of_row ⟨packNnn 0xD 0, 0xF000, "DRW"⟩ (by simp [Instr.wellFormed, x.isLt, y.isLt, n.isLt]) (by decide) rfl (holds_packXyn _ _ _ _ _)

theorem skp (x : Reg) : Statement (.skp x) :=
  of_row ⟨packXnn 0xE 0 0x9E, 0xF0FF, "SKP"⟩ (by simp [Instr.wellFormed, x.isLt]) (by decide) rfl (holds_packXnn_low _ _ _ _)

theorem sknp (x : Reg) : Statement (.sknp x) :=
  of_row ⟨packXnn 0xE 0 0xA1, 0xF0FF, "SKNP"⟩ (by simp [Instr.wellFormed, x.isLt]) (by decide) rfl (holds_packXnn_low _ _ _ _)

theorem ldVxDt (x : Reg) : Statement (.ldVxDt x) :=
  of_row ⟨packXnn 0xF 0 0x07, 0xF0FF, "LD_VX_DT"⟩ (by simp [Instr.wellFormed, x.isLt]) (by decide) rfl (holds_packXnn_low _ _ _ _)

theorem ldVxK (x : Reg) : Statement (.ldVxK x) :=
  of_row ⟨packXnn 0xF 0 0x0A, 0xF0FF, "LD_VX_K"⟩ (by simp [Instr.wellFormed, x.isLt]) (by decide) rfl (holds_packXnn_low _ _ _ _)

theorem ldDtVx (x : Reg) : Statement (.ldDtVx x) :=
  of_row ⟨packXnn 0xF 0 0x15, 0xF0FF, "LD_DT_VX"⟩ (by simp [Instr.wellFormed, x.isLt]) (by decide) rfl (holds_packXnn_low _ _ _ _)

theorem ldStVx (x : Reg) : Statement (.ldStVx x) :=
  of_row ⟨packXnn 0xF 0 0x18, 0xF0FF, "LD_ST_VX"⟩ (by simp [Instr.wellFormed, x.isLt]) (by decide) rfl (holds_packXnn_low _ _ _ _)

theorem addIVx (x : Reg) : Statement (.addIVx x) :=
  of_row ⟨packXnn 0xF 0 0x1E, 0xF0FF, "ADD_I_VX"⟩ (by simp [Instr.wellFormed, x.isLt]) (by decide) rfl (holds_packXnn_low _ _ _ _)

theorem ldFVx (x : Reg) : Statement (.ldFVx x) :=
  of_row ⟨packXnn 0xF 0 0x29, 0xF0FF, "LD_F_VX"⟩ (by simp [Instr.wellFormed, x.isLt]) (by decide) rfl (holds_packXnn_low _ _ _ _)

theorem ldBVx (x : Reg) : Statement (.ldBVx x) :=
  of_row ⟨packXnn 0xF 0 0x33, 0xF0FF, "LD_B_VX"⟩ (by simp [Instr.wellFormed, x.isLt]) (by decide) rfl (holds_packXnn_low _ _ _ _)

theorem ldMiVx (x : Reg) : Statement (.ldMiVx x) :=
  of_row ⟨packXnn 0xF 0 0x55, 0xF0FF, "LD_MI_VX"⟩ (by simp [Instr.wellFormed, x.isLt]) (by decide) rfl (holds_packXnn_low _ _ _ _)

theorem ldVxMi (x : Reg) : Statement (.ldVxMi x) :=
  of_row ⟨packXnn 0xF 0 0x65, 0xF0FF, "LD_VX_MI"⟩ (by simp [Instr.wellFormed, x.isLt]) (by decide) rfl (holds_packXnn_low _ _ _ _)

end Sys2Proof.Laws.EncodesItsRow
end

