-- ==== Sys2Proof/Laws/Step.lean ====
section
/-!
SUPPORT. The step: one equation for each way it can go, one inversion lemma, and the placing of a fetch word.
-/

namespace Sys2Proof.Machine

@[simp] theorem finish_of_running {t : State} (h : t.run = .running) : t.finish = t.tick := by
  simp [State.finish, h]

theorem finish_of_halted {t : State} (h : t.run ≠ .running) : t.finish = t := by
  unfold State.finish; cases hr : t.run
  · exact absurd hr h
  · rfl

/-- What the end of a step can change: the timers and the edge, and only if the instruction completed. -/
theorem finish_eq (t : State) :
    t.finish = { t with dt := t.finish.dt, st := t.finish.st, soundEdge := t.finish.soundEdge } := by
  by_cases h : t.run = .running
  · rw [finish_of_running h]; rfl
  · rw [finish_of_halted h]

@[simp] theorem finish_params (t : State) : t.finish.params = t.params := by rw [finish_eq]
@[simp] theorem finish_mem (t : State) : t.finish.mem = t.mem := by rw [finish_eq]
@[simp] theorem finish_v (t : State) : t.finish.v = t.v := by rw [finish_eq]
@[simp] theorem finish_index (t : State) : t.finish.index = t.index := by rw [finish_eq]
@[simp] theorem finish_pc (t : State) : t.finish.pc = t.pc := by rw [finish_eq]
@[simp] theorem finish_stack (t : State) : t.finish.stack = t.stack := by rw [finish_eq]
@[simp] theorem finish_sp (t : State) : t.finish.sp = t.sp := by rw [finish_eq]
@[simp] theorem finish_fb (t : State) : t.finish.fb = t.fb := by rw [finish_eq]
@[simp] theorem finish_redraw (t : State) : t.finish.redraw = t.redraw := by rw [finish_eq]
@[simp] theorem finish_key (t : State) : t.finish.key = t.key := by rw [finish_eq]
@[simp] theorem finish_run (t : State) : t.finish.run = t.run := by rw [finish_eq]
@[simp] theorem finish_draws (t : State) : t.finish.draws = t.draws := by rw [finish_eq]
@[simp] theorem finish_readByte (t : State) (a : Nat) : t.finish.readByte a = t.readByte a := by rw [finish_eq]; rfl
@[simp] theorem finish_reg (t : State) (r : Reg) : t.finish.reg r = t.reg r := by rw [finish_eq]; rfl
@[simp] theorem finish_slot (t : State) (j : Fin 16) : t.finish.slot j = t.slot j := by rw [finish_eq]; rfl
@[simp] theorem finish_pixel (t : State) (x : Fin 64) (y : Fin 32) : t.finish.pixel x y = t.pixel x y := by
  rw [finish_eq]; rfl

theorem step_of_halted {s : State} (h : s.run ≠ .running) : step s = .next s := by
  unfold step; cases hr : s.run
  · exact absurd hr h
  · rfl

theorem step_of_no_fetch {s : State} (h : s.run = .running) (hf : s.fetch = none) :
    step s = .next (s.raiseHalt .fetchOutOfRange 0) := by
  simp [step, h, hf]

theorem step_of_unknown {s : State} {op : Word} (h : s.run = .running) (hf : s.fetch = some op)
    (hd : decodeWord op = none) : step s = .next (s.raiseHalt .unknownOpcode op) := by
  simp [step, h, hf, hd]

theorem step_of_exec {s t : State} {op : Word} {i : Instr} (h : s.run = .running) (hf : s.fetch = some op)
    (hd : decodeWord op = some i) (he : exec i s = .next t) : step s = .next t.finish := by
  simp [step, h, hf, hd, he]

/-- Any number of steps from a state that steps to itself. -/
theorem run_of_fixed (M : Host.Core) (s : M.State) (h : M.step s = .next s) (k : Nat) : M.run k s = .next s := by
  induction k with
  | zero => rfl
  | succ k ih => rw [Host.Core.run.eq_2, h]; exact ih

/-- Any number of steps of a halted machine (R96). -/
theorem run_of_halted {s : State} (h : s.run ≠ .running) (k : Nat) : Host.Core.run Sys2Proof.core k s = .next s :=
  run_of_fixed Sys2Proof.core s (step_of_halted h) k

/-- Every way a step can reach a next state. -/
theorem step_cases {s t : State} (h : step s = .next t) :
    (s.run ≠ .running ∧ t = s) ∨
    (s.run = .running ∧ s.fetch = none ∧ t = s.raiseHalt .fetchOutOfRange 0) ∨
    (∃ op, s.run = .running ∧ s.fetch = some op ∧ decodeWord op = none ∧ t = s.raiseHalt .unknownOpcode op) ∨
    (∃ op i u, s.run = .running ∧ s.fetch = some op ∧ decodeWord op = some i ∧ exec i s = .next u ∧ t = u.finish) := by
  by_cases hr : s.run = .running
  · right
    cases hf : s.fetch with
    | none => rw [step_of_no_fetch hr hf] at h; cases h; exact .inl ⟨hr, rfl, rfl⟩
    | some op =>
      right
      cases hd : decodeWord op with
      | none => rw [step_of_unknown hr hf hd] at h; cases h; exact .inl ⟨op, hr, rfl, hd, rfl⟩
      | some i =>
        right
        cases he : exec i s with
        | next u => rw [step_of_exec hr hf hd he] at h; cases h; exact ⟨op, i, u, hr, rfl, hd, he, rfl⟩
        | fault r => cases r
        | refused r => simp [step, hr, hf, hd, he] at h
  · rw [step_of_halted hr] at h; cases h; exact .inl ⟨hr, rfl⟩

/-- The fetch answers exactly when pc is at most 0xFFE. -/
theorem fetch_eq_some {s : State} (h : s.pc.toNat ≤ 0xFFE) :
    s.fetch = some (wordOfBytes (s.readByte s.pc.toNat) (s.readByte (s.pc.toNat + 1))) := by
  rw [State.fetch, if_neg (by omega)]

theorem fetch_eq_none {s : State} (h : s.pc.toNat > 0xFFE) : s.fetch = none := by
  rw [State.fetch, if_pos h]

theorem pc_le_of_fetch {s : State} {op : Word} (h : s.fetch = some op) : s.pc.toNat ≤ 0xFFE := by
  by_contra hn; rw [fetch_eq_none (by omega)] at h; cases h

theorem fetchPlace_le (s : State) : s.fetchPlace.toNat ≤ 0xFFE := by
  unfold State.fetchPlace; split
  · decide
  · omega

/-- `withFetchWord` does what it is for: from any state, the very next step finds the machine Running and fetches that
word. -/
theorem fetch_withFetchWord (s : State) (nbits w : Nat) :
    (s.withFetchWord nbits w).run = .running ∧ (s.withFetchWord nbits w).fetch = some (fetchWordOf nbits w) := by
  refine ⟨rfl, ?_⟩
  have hp : (s.withFetchWord nbits w).pc.toNat ≤ 0xFFE := fetchPlace_le s
  rw [fetch_eq_some hp]
  have h0 : ∀ a, (s.withFetchWord nbits w).readByte a =
      ((s.writeByte s.fetchPlace.toNat ((fetchWordOf nbits w).extractLsb' 8 8)).writeByte (s.fetchPlace.toNat + 1)
        ((fetchWordOf nbits w).extractLsb' 0 8)).readByte a := fun _ => rfl
  rw [h0, h0]
  have hpc : (s.withFetchWord nbits w).pc = s.fetchPlace := rfl
  rw [hpc, readByte_writeByte_self, readByte_writeByte_ne _ _ (by omega), readByte_writeByte_self, wordOfBytes_split]

end Sys2Proof.Machine
end

