-- ==== Sys2Proof/Tests/Slice0.lean ====
section
/-!
SUPPORT. The model's own tests, each one step on a small state, and a witness for every statement that has premises. The
expected values are those of spec/95_test_vectors.md (the vector's name stands in the docstring), worked out there by hand.
-/

namespace Sys2Proof.Tests

open Sys2Proof Sys2Proof.Machine

/-! ### Small states -/

/-- After reset, with the word `w` where the next step fetches (spec/95_test_vectors.md: "the instruction word at pc0 = 0x200"). -/
def at200 (w : Nat) : State := State.reset.withFetchWord 16 w

/-- The state with the given registers written. -/
def withRegs (s : State) (rs : List (Reg × Byte)) : State := rs.foldl (fun t p => t.setReg p.1 p.2) s

/-- The state with the given bytes at and above `a`. -/
def withBytes (s : State) (a : Nat) (bs : List Byte) : State := s.copyBytes a bs

/-- The state with other policies. -/
def withPolicies (s : State) (sp : SpriteOobPolicy) (fw : FontWritePolicy) : State :=
  { s with params := { s.params with sprite := sp, fontWrite := fw } }

/-- The state with the stack pointer at `n` and every slot holding `w`. -/
def withStack (s : State) (n : Fin 17) (w : Word) : State := { s with sp := n, stack := Vector.replicate 16 w }

/-- What a reading of the next state gives, if there is one. -/
def reads {α : Type} (f : State → α) (out : Host.Outcome State Fault Refusal) : Option α :=
  match out with
  | .next t => some (f t)
  | .fault _ => none
  | .refused _ => none

/-- V[x], VF, pc and run. -/
def regView (x : Reg) (t : State) : Byte × Byte × Word := (t.reg x, t.reg VF, t.pc)

/-! ### Well-formedness: what is refused -/

/-- One word of each of the families 0, 5 and 9 of R75 (T1, T2, T4, T5). -/
theorem test_unknown_words_refused_0_5_9 : wordWellFormed 0x0000 = false ∧ wordWellFormed 0x01E0 = false ∧ wordWellFormed 0x5121 = false ∧ wordWellFormed 0x9121 = false := by decide

/-- One word of each of the families 8, E and F of R75 (T3, T5). -/
theorem test_unknown_words_refused_8_E_F : wordWellFormed 0x8128 = false ∧ wordWellFormed 0x812F = false ∧ wordWellFormed 0xE19F = false ∧ wordWellFormed 0xF0FF = false := by decide

/-- Words of the table are accepted. -/
theorem test_known_words_accepted : wordWellFormed 0x00E0 = true ∧ wordWellFormed 0x8126 = true ∧ wordWellFormed 0xF265 = true := by decide

/-- S10: 3584 bytes are accepted, one more is refused. -/
theorem test_image_of_3585_refused : imageWellFormed (List.replicate 3584 0) = true ∧ imageWellFormed (List.replicate 3585 0) = false := by
  constructor <;> rw [imageWellFormed, List.length_replicate] <;> decide

/-- R70: one byte is no instruction word; R75: an unknown word is named. -/
theorem test_short_input_refused : decodeBytes [0x12] = .truncated ∧ decodeBytes [0x51, 0x21] = .unknownOpcode 0x5121 := by decide

/-- A word with a bit above the sixteenth is no instruction (R77). -/
theorem test_table_word_of_32_bits_refused : decodeTableWord 32 0x16A9D = none := by decide

/-! ### Decoding: every constructor by a word written out from its pattern (R73) -/

/-- Patterns of R73, bit by bit. -/
theorem test_decode_control_flow : decodeWord 0b0000000011100000 = some .cls ∧
    decodeWord 0b0000000011101110 = some .ret ∧
    decodeWord 0b0001001000110100 = some (.jp 0x234) ∧
    decodeWord 0b0010101010111100 = some (.call 0xABC) := by decide

/-- Patterns of R73, bit by bit. -/
theorem test_decode_skips : decodeWord 0b0011001101000010 = some (.seVxNn 3 0x42) ∧
    decodeWord 0b0100110110000001 = some (.sneVxNn 0xD 0x81) ∧
    decodeWord 0b0101000100100000 = some (.seVxVy 1 2) ∧
    decodeWord 0b1001111000010000 = some (.sneVxVy 0xE 1) := by decide

/-- Patterns of R73, bit by bit. -/
theorem test_decode_loads : decodeWord 0b0110101010011101 = some (.ldVxNn 0xA 0x9D) ∧
    decodeWord 0b0111000000000101 = some (.addVxNn 0 5) ∧
    decodeWord 0b1100001100001111 = some (.rnd 3 0x0F) ∧
    decodeWord 0b1011011111100001 = some (.jpV0 0x7E1) ∧
    decodeWord 0b1010001100000000 = some (.ldINnn 0x300) := by decide

/-- Patterns of R73, bit by bit. -/
theorem test_decode_family8a : decodeWord 0b1000000100100000 = some (.ldVxVy 1 2) ∧
    decodeWord 0b1000000100100001 = some (.or 1 2) ∧
    decodeWord 0b1000000100100010 = some (.and 1 2) ∧
    decodeWord 0b1000000100100011 = some (.xor 1 2) ∧
    decodeWord 0b1000000100100100 = some (.addVxVy 1 2) := by decide

/-- Patterns of R73, bit by bit. -/
theorem test_decode_family8b : decodeWord 0b1000000100100101 = some (.sub 1 2) ∧
    decodeWord 0b1000000100100110 = some (.shr 1 2) ∧
    decodeWord 0b1000000100100111 = some (.subn 1 2) ∧
    decodeWord 0b1000000100101110 = some (.shl 1 2) := by decide

/-- Patterns of R73, bit by bit. -/
theorem test_decode_familyDE : decodeWord 0b1101000000010010 = some (.drw 0 1 2) ∧
    decodeWord 0b1110001010011110 = some (.skp 2) ∧
    decodeWord 0b1110110010100001 = some (.sknp 0xC) := by decide

/-- Patterns of R73, bit by bit. -/
theorem test_decode_familyFa : decodeWord 0b1111010100000111 = some (.ldVxDt 5) ∧
    decodeWord 0b1111010100001010 = some (.ldVxK 5) ∧
    decodeWord 0b1111010100010101 = some (.ldDtVx 5) ∧
    decodeWord 0b1111001100011000 = some (.ldStVx 3) ∧
    decodeWord 0b1111000100011110 = some (.addIVx 1) := by decide

/-- Patterns of R73, bit by bit. -/
theorem test_decode_familyFb : decodeWord 0b1111001100101001 = some (.ldFVx 3) ∧
    decodeWord 0b1111101000110011 = some (.ldBVx 0xA) ∧
    decodeWord 0b1111001001010101 = some (.ldMiVx 2) ∧
    decodeWord 0b1111001001100101 = some (.ldVxMi 2) := by decide

/-- S12: the byte at the lower address is bits 15..8. -/
theorem test_bytes_are_big_endian : decodeBytes [0x12, 0x34, 0xFF] = .instr (.jp 0x234) ∧ encodeBytes (.jp 0x234) = [0x12, 0x34] := by decide

/-- Lines of the programs P2 and P3. -/
theorem test_assembler_lines : (decodeWord 0x6A9D).map Instr.text = some "LD VA, 9D" ∧ (decodeWord 0xD012).map Instr.text = some "DRW V0, V1, 2" ∧
    (decodeWord 0xF265).map Instr.text = some "LD V2, [I]" ∧ (decodeWord 0x120C).map Instr.text = some "JP 20C" := by decide

/-! ### Control flow -/

/-- C1 -/
theorem test_jp : reads (fun t => (t.pc, t.run)) (step (at200 0x1234)) =
    some (0x234, .running) := by decide

/-- C3 -/
theorem test_call : reads (fun t => (t.slot 0, t.sp, t.pc)) (step (at200 0x2300)) =
    some (0x200, 1, 0x300) := by decide

/-- C4 -/
theorem test_call_full : reads (fun t => (t.sp, t.pc, t.run)) (step (withStack (at200 0x2300) 16 0x200)) =
    some (16, 0x200, .halted .stackOverflow 0x2300 0x200) := by decide

/-- C5 -/
theorem test_ret : reads (fun t => (t.sp, t.pc, t.slot 0)) (step (withStack (at200 0x00EE) 1 0x250)) =
    some (0, 0x252, 0x250) := by decide

/-- C6 -/
theorem test_ret_empty : reads (fun t => (t.pc, t.run)) (step (at200 0x00EE)) =
    some (0x200, .halted .stackUnderflow 0x00EE 0x200) := by decide

/-- C7 -/
theorem test_se_byte_skips : reads (fun t => t.pc) (step (withRegs (at200 0x3342) [(3, 0x42)])) =
    some 0x204 := by decide

/-- C8 -/
theorem test_se_byte_goes_on : reads (fun t => t.pc) (step (withRegs (at200 0x3342) [(3, 0x41)])) =
    some 0x202 := by decide

/-- C9 -/
theorem test_sne_byte_skips : reads (fun t => t.pc) (step (withRegs (at200 0x4342) [(3, 0x41)])) =
    some 0x204 := by decide

/-- C10 -/
theorem test_sne_byte_goes_on : reads (fun t => t.pc) (step (withRegs (at200 0x4342) [(3, 0x42)])) =
    some 0x202 := by decide

/-- C11 -/
theorem test_se_register_skips : reads (fun t => t.pc) (step (withRegs (at200 0x5120) [(1, 7), (2, 7)])) =
    some 0x204 := by decide

/-- C13 -/
theorem test_sne_register_skips : reads (fun t => t.pc) (step (withRegs (at200 0x9120) [(1, 7), (2, 8)])) =
    some 0x204 := by decide

/-- C14: x = y -/
theorem test_sne_register_goes_on : reads (fun t => t.pc) (step (withRegs (at200 0x9110) [(1, 7)])) =
    some 0x202 := by decide

/-- C16: the sum is not masked to 12 bits -/
theorem test_jp_v0 : reads (fun t => t.pc) (step (withRegs (at200 0xBFF0) [(0, 0x20)])) =
    some 0x1010 := by decide

/-! ### Loads, logic, ALU, random -/

/-- A1. -/
theorem test_ld_byte : reads (fun t => (t.reg 0xA, t.reg VF, t.pc)) (step (at200 0x6A9D)) =
    some (0x9D, 0, 0x202) := by decide

/-- A3: VF keeps its value. -/
theorem test_add_byte_wraps : reads (fun t => (t.reg 0, t.reg VF, t.pc)) (step (withRegs (at200 0x7001) [(0xF, 1), (0, 0xFF)])) =
    some (0, 1, 0x202) := by decide

/-- A5. -/
theorem test_ld_register : reads (fun t => (t.reg 1, t.reg VF, t.pc)) (step (withRegs (at200 0x8120) [(2, 0x11)])) =
    some (0x11, 0, 0x202) := by decide

/-- A6. -/
theorem test_or : reads (fun t => (t.reg 1, t.reg VF, t.pc)) (step (withRegs (at200 0x8121) [(1, 0x0F), (2, 0xF0), (0xF, 5)])) =
    some (0xFF, 5, 0x202) := by decide

/-- A7. -/
theorem test_and : reads (fun t => (t.reg 1, t.reg VF, t.pc)) (step (withRegs (at200 0x8122) [(1, 0x3C), (2, 0x0F)])) =
    some (0x0C, 0, 0x202) := by decide

/-- A8. -/
theorem test_xor : reads (fun t => (t.reg 1, t.reg VF, t.pc)) (step (withRegs (at200 0x8123) [(1, 0xFF), (2, 0x0F)])) =
    some (0xF0, 0, 0x202) := by decide

/-- A10. -/
theorem test_add_carries : reads (fun t => (t.reg 1, t.reg VF, t.pc)) (step (withRegs (at200 0x8124) [(1, 0xFF), (2, 1)])) =
    some (0, 1, 0x202) := by decide

/-- A14: the carry is overwritten. -/
theorem test_add_into_vf : reads (fun t => (t.reg 0xF, t.reg VF, t.pc)) (step (withRegs (at200 0x8F14) [(0xF, 0x10), (1, 0xF5)])) =
    some (5, 5, 0x202) := by decide

/-- A18. -/
theorem test_sub_borrows : reads (fun t => (t.reg 1, t.reg VF, t.pc)) (step (withRegs (at200 0x8125) [(1, 3), (2, 5)])) =
    some (0xFE, 0, 0x202) := by decide

/-- A22. -/
theorem test_sub_vf_is_y : reads (fun t => (t.reg 1, t.reg VF, t.pc)) (step (withRegs (at200 0x81F5) [(1, 0x20), (0xF, 0x10)])) =
    some (0x1F, 1, 0x202) := by decide

/-- A27. -/
theorem test_shr_ignores_y : reads (fun t => (t.reg 1, t.reg VF, t.pc)) (step (withRegs (at200 0x8126) [(1, 4), (2, 0xFF)])) =
    some (2, 0, 0x202) := by decide

/-- A28. -/
theorem test_shr_of_vf : reads (fun t => (t.reg 0xF, t.reg VF, t.pc)) (step (withRegs (at200 0x8F06) [(0xF, 3)])) =
    some (0, 0, 0x202) := by decide

/-- A30. -/
theorem test_subn_borrows : reads (fun t => (t.reg 1, t.reg VF, t.pc)) (step (withRegs (at200 0x8127) [(1, 5), (2, 3)])) =
    some (0xFE, 0, 0x202) := by decide

/-- A32. -/
theorem test_subn_into_vf : reads (fun t => (t.reg 0xF, t.reg VF, t.pc)) (step (withRegs (at200 0x8F17) [(0xF, 0x10), (1, 0x20)])) =
    some (0x1F, 0x1F, 0x202) := by decide

/-- A35. -/
theorem test_shl_carries : reads (fun t => (t.reg 1, t.reg VF, t.pc)) (step (withRegs (at200 0x810E) [(1, 0x81)])) =
    some (2, 1, 0x202) := by decide

/-- A38. -/
theorem test_shl_of_vf : reads (fun t => (t.reg 0xF, t.reg VF, t.pc)) (step (withRegs (at200 0x8F0E) [(0xF, 0x81)])) =
    some (2, 2, 0x202) := by decide

/-- A40: the draw r = B7. -/
theorem test_rnd_masks_the_draw : regView 3 (rndWith 0xB7 3 0x0F State.reset) = (0x07, 0, 0x202) := by decide

/-- A41: any draw. -/
theorem test_rnd_with_mask_zero : ∀ r : Byte, (rndWith r 3 0 State.reset).reg 3 = 0 := by
  intro r; simp [rndWith, State.reg, State.setReg, State.countDraw, State.advance, State.setPc]

/-! ### Index register and memory -/

/-- M1 -/
theorem test_ld_i : reads (fun t => (t.index, t.pc)) (step (at200 0xA300)) =
    some (0x300, 0x202) := by decide

/-- M2 -/
theorem test_add_i_flags_overflow : reads (fun t => (t.index, t.reg VF)) (step ((withRegs (at200 0xF11E) [(1, 0x10)]).setIndex 0xFFA)) =
    some (0x100A, 1) := by decide

/-- M5 -/
theorem test_add_i_vf_is_x : reads (fun t => (t.index, t.reg VF)) (step ((withRegs (at200 0xFF1E) [(0xF, 0x10)]).setIndex 0x100)) =
    some (0x100, 0) := by decide

/-- M9: not masked to a nibble -/
theorem test_font_address : reads (fun t => (t.index, t.pc)) (step (withRegs (at200 0xF329) [(3, 0xFF)])) =
    some (0x4FB, 0x202) := by decide

/-- M10 -/
theorem test_bcd : reads (fun t => (t.readByte 0x300, t.readByte 0x301, t.readByte 0x302, t.index)) (step ((withRegs (at200 0xFA33) [(0xA, 0x9D)]).setIndex 0x300)) =
    some (1, 5, 7, 0x300) := by decide

/-- M14 -/
theorem test_bcd_into_font_faults : reads (fun t => (t.readByte 0x04F, t.pc, t.run)) (step ((at200 0xF133).setIndex 0x04F)) =
    some (0x80, 0x200, .halted .fontWrite 0xF133 0x200) := by decide

/-- M16 -/
theorem test_store : reads (fun t => (t.readByte 0x300, t.readByte 0x301, t.readByte 0x302, t.readByte 0x303, t.index)) (step ((withRegs (at200 0xF255) [(0, 1), (1, 2), (2, 3)]).setIndex 0x300)) =
    some (1, 2, 3, 0, 0x303) := by decide

/-- M19 -/
theorem test_store_beyond_memory : reads (fun t => (t.index, t.run)) (step ((at200 0xFF55).setIndex 0xFF1)) =
    some (0xFF1, .halted .memoryOutOfRange 0xFF55 0x200) := by decide

/-- M22: glyph 0 of the font -/
theorem test_load : reads (fun t => (t.reg 0, t.reg 1, t.reg 3, t.reg 4, t.reg 5, t.index)) (step ((at200 0xF465).setIndex 0x000)) =
    some (0xF0, 0x90, 0x90, 0xF0, 0, 5) := by decide

/-- M23 -/
theorem test_load_into_vf : reads (fun t => (t.reg VF, t.index)) (step ((withBytes (at200 0xFF65) 0x30F [0xAA]).setIndex 0x300)) =
    some (0xAA, 0x310) := by decide

/-! ### Graphics -/

/-- G1 -/
theorem test_cls : reads (fun t => (t.pixel 3 2, t.redraw, t.pc)) (step ({ at200 0x00E0 with fb := Framebuffer.toggle blankScreen 3 2 })) =
    some (false, true, 0x202) := by decide

/-- G3 -/
theorem test_drw : reads (fun t => ([t.pixel 3 2, t.pixel 4 2, t.pixel 3 3, t.pixel 4 3, t.pixel 5 2], t.reg VF, t.redraw)) (step ((withRegs (withBytes (at200 0xD012) 0x300 [0xC0, 0x80]) [(0, 3), (1, 2)]).setIndex 0x300)) =
    some ([true, true, true, false, false], 0, true) := by decide

/-- G4 -/
theorem test_drw_collides : reads (fun t => (t.pixel 3 2, t.pixel 4 2, t.pixel 3 3, t.reg VF)) (step ({ (withRegs (withBytes (at200 0xD012) 0x300 [0xC0, 0x80]) [(0, 3), (1, 2)]).setIndex 0x300 with fb := Framebuffer.toggle blankScreen 4 2 })) =
    some (true, false, true, 1) := by decide

/-! ### Timers and keypad -/

/-- K1: the value before the tick -/
theorem test_ld_from_delay : reads (fun t => (t.reg 5, t.dt, t.pc)) (step ({ at200 0xF507 with dt := 0x3C })) =
    some (0x3C, 0x3B, 0x202) := by decide

/-- K3 -/
theorem test_ld_to_delay : reads (fun t => (t.dt, t.pc)) (step (withRegs (at200 0xF515) [(5, 5)])) =
    some (4, 0x202) := by decide

/-- K6 -/
theorem test_ld_to_sound : reads (fun t => (t.st, t.soundEdge, t.pc)) (step (withRegs (at200 0xF318) [(3, 1)])) =
    some (0, true, 0x202) := by decide

/-- K7: no edge -/
theorem test_ld_zero_to_sound : reads (fun t => (t.st, t.soundEdge)) (step ({ at200 0xF318 with st := 1 })) =
    some (0, false) := by decide

/-- K10 -/
theorem test_skp_skips : reads (fun t => t.pc) (step ((withRegs (at200 0xE29E) [(2, 7)]).setKey 7 true)) =
    some 0x204 := by decide

/-- K14 -/
theorem test_skp_of_no_key : reads (fun t => (t.pc, t.run)) (step (withRegs (at200 0xE29E) [(2, 0x10)])) =
    some (0x200, .halted .keyIndexOutOfRange 0xE29E 0x200) := by decide

/-- K12 -/
theorem test_sknp_skips : reads (fun t => t.pc) (step (withRegs (at200 0xE2A1) [(2, 7)])) =
    some 0x204 := by decide

/-- K13 -/
theorem test_sknp_goes_on : reads (fun t => t.pc) (step ((withRegs (at200 0xE2A1) [(2, 7)]).setKey 7 true)) =
    some 0x202 := by decide

/-- K15: the timers still tick -/
theorem test_wait_for_key : reads (fun t => (t.pc, t.reg 5, t.dt)) (step ({ at200 0xF50A with dt := 2 })) =
    some (0x200, 0, 1) := by decide

/-- K16 -/
theorem test_take_lowest_key : reads (fun t => (t.reg 5, t.pc)) (step (((at200 0xF50A).setKey 9 true).setKey 3 true)) =
    some (3, 0x202) := by decide

/-! ### The step, errors, host -/

/-- T10: no tick -/
theorem test_unknown_word : reads (fun t => (t.run, t.pc, t.dt)) (step ({ at200 0x0000 with dt := 5 })) =
    some (.halted .unknownOpcode 0 0x200, 0x200, 5) := by decide

/-- T6 -/
theorem test_fetch_beyond_memory : reads (fun t => (t.run, t.pc)) (step (State.reset.setPc 0xFFF)) =
    some (.halted .fetchOutOfRange 0 0xFFF, 0xFFF) := by decide

/-- T7 -/
theorem test_last_word_of_memory : reads (fun t => (t.reg 0xA, t.pc)) (step ((withBytes State.reset 0xFFE [0x6A, 0x01]).setPc 0xFFE)) =
    some (1, 0x1000) := by decide

/-- T8 -/
theorem test_odd_pc : reads (fun t => (t.reg 0, t.pc)) (step ((withBytes State.reset 0x201 [0x60, 0x07]).setPc 0x201)) =
    some (7, 0x203) := by decide

/-- L1. -/
theorem test_reset_after_halt : ((at200 0x0000).raiseHalt .unknownOpcode 0).hostReset = State.reset := by decide

/-- L5. -/
theorem test_load_while_halted : ((State.reset.setPc 0x234).raiseHalt .unknownOpcode 0).load [0xAA] =
    some { ((State.reset.setPc 0x234).raiseHalt .unknownOpcode 0) with mem := [(0x200, 0xAA)] } := by decide

/-- Writing the reset contents back removes the entry (log entry 8). -/
theorem test_write_keeps_the_list_canonical : ((State.reset.writeByte 0x300 5).writeByte 0x200 7).mem = [(0x200, 7), (0x300, 5)] ∧
    ((State.reset.writeByte 0 5).writeByte 0 0xF0).mem = [] := by decide

/-! ### Witnesses: a state and operands that meet the premises of each statement, clause by clause

Two clauses that differ in a number are shown at the numbers where they meet. -/

/-- A state in which each part of a premise can be read off: the word at 0x200, I, and the policies of the default. -/
def atIndex (w : Nat) (i : Word) : State := (at200 w).setIndex i

theorem witness_EncodeOfDecodeIsTheWord : decodeWord 0x8126 = some (.shr 1 2) := by decide

theorem witness_ExactlyOneRowHoldsOfAKnownWord_known : decodeWord 0x00E0 = some .cls := by decide
theorem witness_ExactlyOneRowHoldsOfAKnownWord_unknown : decodeWord 0x00E1 = none := by decide

theorem witness_StepRunsTheDecodedInstruction :
    (at200 0x6A9D).run = .running ∧ (at200 0x6A9D).pc.toNat ≤ 0xFFE ∧
    decodeBytes [(at200 0x6A9D).readByte (at200 0x6A9D).pc.toNat, (at200 0x6A9D).readByte ((at200 0x6A9D).pc.toNat + 1)] =
      .instr (.ldVxNn 0xA 0x9D) := by decide
theorem witness_StepRunsTheDecodedInstruction_completes :
    reads (·.run) (exec (.ldVxNn 0xA 0x9D) (at200 0x6A9D)) = some .running := by decide
theorem witness_StepRunsTheDecodedInstruction_raises :
    decodeBytes [(at200 0x00EE).readByte 0x200, (at200 0x00EE).readByte 0x201] = .instr .ret ∧
    reads (·.run) (exec .ret (at200 0x00EE)) = some (.halted .stackUnderflow 0x00EE 0x200) := by decide

theorem witness_FetchIsBigEndian_last : (State.reset.setPc 0xFFE).pc.toNat ≤ 0xFFE := by decide
theorem witness_FetchIsBigEndian_beyond : (State.reset.setPc 0xFFF).pc.toNat > 0xFFE := by decide
theorem witness_FetchBeyondMemoryHalts :
    (State.reset.setPc 0xFFF).run = .running ∧ (State.reset.setPc 0xFFF).pc.toNat > 0xFFE := by decide

theorem witness_UnknownOpcodeHalts :
    (at200 0x5121).run = .running ∧ (at200 0x5121).fetch = some 0x5121 ∧ decodeWord 0x5121 = none ∧
      HostOp.load [0xAA] ≠ .reset := by decide

theorem witness_HaltedStepsAreNoOps :
    ((at200 0x5121).raiseHalt .unknownOpcode 0x5121).run = .halted .unknownOpcode 0x5121 0x200 := by decide

theorem witness_FailingStepChangesOnlyRun :
    (at200 0x2300).run = .running ∧ ∃ t, step (withStack (at200 0x2300) 16 0x200) = .next t ∧ t.run ≠ .running :=
  ⟨by decide, _, rfl, by decide⟩
theorem witness_FailingStepChangesOnlyRun_no_fetch :
    ∃ t, step (State.reset.setPc 0xFFF) = .next t ∧ t.run ≠ .running ∧ (State.reset.setPc 0xFFF).fetch = none :=
  ⟨_, rfl, by decide, by decide⟩

theorem witness_CausesAreTheTableOfErrors : (at200 0x2300).run = .running := by decide
theorem witness_CausesAreTheTableOfErrors_halted :
    reads (·.run) (exec (.skp 2) (withRegs (at200 0xE29E) [(2, 0x10)])) =
      some (.halted .keyIndexOutOfRange 0xE29E 0x200) := by decide
theorem witness_CausesAreTheTableOfErrors_memory :
    CauseApplies (.ldBVx 1) (atIndex 0xF133 0xFFE) .memoryOutOfRange := .inr (.inl ⟨1, rfl, by decide⟩)

theorem witness_EveryInstructionKeepsItsFrame : ∃ t, exec (.ldMiVx 2) (atIndex 0xF255 0x300) = .next t := ⟨_, rfl⟩

/-- The invariant holds of a state that runs an instruction. -/
theorem inv_at200 : Inv (at200 0x6A9D) where
  memWf := by decide
  fontIntact := fun _ => by decide
  pcBound := by decide
  slotsFetchable := by decide
  haltRecord := by intro _ _ _ h; cases h

theorem witness_StepKeepsTheInvariant : Inv (at200 0x6A9D) ∧ ∃ t, step (at200 0x6A9D) = .next t := ⟨inv_at200, _, rfl⟩
theorem witness_HostOperationsKeepTheInvariant : Inv (at200 0x6A9D) := inv_at200
theorem witness_ReachableStatesMeetTheInvariant :
    ∃ t, step ((State.resetWith Params.default).hostDo (.load [0x6A, 0x9D])) = .next t ∧ Reachable Params.default t :=
  ⟨_, rfl, .step (.host (.load [0x6A, 0x9D]) .boot) rfl⟩

theorem witness_FontRegionIsNeverWritten :
    (atIndex 0xF055 0x050).params.fontWrite = .fault ∧ (0x04F : Nat) ≤ 0x04F ∧
      ∃ t, step (atIndex 0xF055 0x050) = .next t := ⟨by decide, by decide, _, rfl⟩

theorem witness_ResetGivesTheTable : (79 : Nat) < 80 ∧ 0x050 ≤ (0x050 : Nat) := by decide
theorem witness_ResetFromAnyState :
    ((at200 0x5121).raiseHalt .unknownOpcode 0x5121).run ≠ .running ∧
      (∃ t, step ((at200 0x5121).raiseHalt .unknownOpcode 0x5121) = .next t) ∧ HostOp.load [0xAA] ≠ .reset :=
  ⟨by decide, ⟨_, rfl⟩, by decide⟩

theorem witness_LoadCopiesOrFails_too_long : (List.replicate 3585 (0 : Byte)).length > 3584 := by
  rw [List.length_replicate]; decide
theorem witness_LoadCopiesOrFails_longest : (List.replicate 3584 (1 : Byte)).length ≤ 3584 := by
  rw [List.length_replicate]
theorem witness_LoadCopiesOrFails_addresses :
    (1 : Nat) < [(0x12 : Byte), 0x00].length ∧ (0x1FF : Nat) < 0x200 ∧ 0x200 + [(0x12 : Byte), 0x00].length ≤ 0x202 := by
  decide

theorem witness_OnlyTheHostClearsFlags :
    ({ at200 0x1200 with redraw := true, soundEdge := true } : State).redraw = true ∧
      ∃ t, step { at200 0x1200 with redraw := true, soundEdge := true } = .next t := ⟨rfl, _, rfl⟩
theorem witness_OnlyTheHostWritesKeys : ∃ t, step ((at200 0x1200).setKey 7 true) = .next t := ⟨_, rfl⟩

theorem witness_DelayTimerTicks_completes :
    (at200 0x1200).run = .running ∧ (at200 0x1200).fetch = some 0x1200 ∧ decodeWord 0x1200 = some (.jp 0x200) ∧
      reads (·.run) (exec (.jp 0x200) (at200 0x1200)) = some .running ∧ ∃ t, step (at200 0x1200) = .next t :=
  ⟨by decide, by decide, by decide, by decide, _, rfl⟩
theorem witness_DelayTimerTicks_raises : ∃ t, step (at200 0x0000) = .next t ∧ t.run ≠ .running := ⟨_, rfl, by decide⟩
theorem witness_SoundTimerTicksAndRaisesTheEdge :
    ({ at200 0x1200 with st := 1 } : State).run = .running ∧
      ({ at200 0x1200 with st := 1 } : State).fetch = some 0x1200 ∧ decodeWord 0x1200 = some (.jp 0x200) ∧
      (∃ u, exec (.jp 0x200) { at200 0x1200 with st := 1 } = .next u ∧ u.run = .running ∧ u.st.toNat = 1) ∧
      ∃ t, step { at200 0x1200 with st := 1 } = .next t :=
  ⟨by decide, by decide, by decide, ⟨_, rfl, by decide, by decide⟩, _, rfl⟩
theorem witness_SoundTimerTicksAndRaisesTheEdge_raises :
    ∃ t, step { at200 0x0000 with st := 1 } = .next t ∧ t.run ≠ .running := ⟨_, rfl, by decide⟩
theorem witness_TimerWriteIsTickedInItsOwnStep :
    (at200 0xF515).run = .running ∧
    (at200 0xF515).fetch = some 0xF515 ∧ decodeWord 0xF515 = some (.ldDtVx 5) ∧
    (at200 0xF318).fetch = some 0xF318 ∧ decodeWord 0xF318 = some (.ldStVx 3) ∧
    (at200 0xF507).fetch = some 0xF507 ∧ decodeWord 0xF507 = some (.ldVxDt 5) := by decide

theorem witness_CallPushesItsOwnAddress_room : (withStack (at200 0x2300) 15 0x200).sp.val < 16 := by decide
theorem witness_CallPushesItsOwnAddress_full : (withStack (at200 0x2300) 16 0x200).sp.val = 16 := by decide
theorem witness_ReturnPopsAndAddsTwo_one : (withStack (at200 0x00EE) 1 0x250).sp.val = (0 : Fin 16).val + 1 := by decide
theorem witness_ReturnPopsAndAddsTwo_full : (withStack (at200 0x00EE) 16 0x250).sp.val = (15 : Fin 16).val + 1 := by decide
theorem witness_ReturnPopsAndAddsTwo_empty : (at200 0x00EE).sp.val = 0 := by decide
theorem witness_ReturnResumesAfterTheCall :
    (at200 0x2300).sp.val < 16 ∧ ∃ t, exec (.call 0x300) (at200 0x2300) = .next t ∧
      (withRegs t [(3, 1)]).sp = t.sp ∧
      (withRegs t [(3, 1)]).slot (Fin.ofNat 16 (at200 0x2300).sp.val) = t.slot (Fin.ofNat 16 (at200 0x2300).sp.val) :=
  ⟨by decide, _, rfl, rfl, rfl⟩

theorem witness_SkipsCompareRegisters :
    (0x5121 : Word).toNat / 4096 = 0x5 ∧ (0x5121 : Word).toNat % 16 ≠ 0 ∧ (0x912F : Word).toNat / 4096 = 0x9 ∧
      (0x912F : Word).toNat % 16 ≠ 0 := by decide

theorem witness_AddSetsCarry : (1 : Reg) ≠ VF := by decide
theorem witness_SubtractionsSetNotBorrow : (1 : Reg) ≠ VF := by decide
theorem witness_ShiftsByOneBit : (1 : Reg) ≠ VF := by decide

theorem witness_BcdStore_last :
    (atIndex 0xF133 0xFFD).index.toNat + 2 ≤ 0xFFF ∧ 0x04F < (atIndex 0xF133 0xFFD).index.toNat := by decide
theorem witness_BcdStore_first_above_font :
    (atIndex 0xF133 0x050).index.toNat + 2 ≤ 0xFFF ∧ 0x04F < (atIndex 0xF133 0x050).index.toNat := by decide
theorem witness_BcdStore_into_font :
    (withPolicies (atIndex 0xF133 0x04F) .clip .write).index.toNat + 2 ≤ 0xFFF ∧
      (withPolicies (atIndex 0xF133 0x04F) .clip .write).params.fontWrite = .write := by decide
theorem witness_BcdStore_beyond_memory : (atIndex 0xF133 0xFFE).index.toNat + 2 > 0xFFF := by decide
theorem witness_BcdStore_font_faults :
    (atIndex 0xF133 0x04F).index.toNat ≤ 0x04F ∧ (atIndex 0xF133 0x04F).params.fontWrite = .fault := by decide

theorem witness_RegisterStore_last :
    (atIndex 0xFF55 0xFF0).index.toNat + (0xF : Reg).val ≤ 0xFFF ∧ 0x04F < (atIndex 0xFF55 0xFF0).index.toNat ∧
      (0xF : Reg).val ≤ (0xF : Reg).val := by decide
theorem witness_RegisterStore_first_above_font :
    (atIndex 0xF055 0x050).index.toNat + (0 : Reg).val ≤ 0xFFF ∧ 0x04F < (atIndex 0xF055 0x050).index.toNat := by decide
theorem witness_RegisterStore_untouched_byte :
    ∀ k : Reg, k.val ≤ (2 : Reg).val → (0x303 : Nat) ≠ (atIndex 0xF255 0x300).dataAddr k.val := by decide
theorem witness_RegisterStore_beyond_memory : (atIndex 0xFF55 0xFF1).index.toNat + (0xF : Reg).val > 0xFFF := by decide
theorem witness_RegisterStore_font_faults :
    (atIndex 0xF055 0x04F).index.toNat ≤ 0x04F ∧ (atIndex 0xF055 0x04F).params.fontWrite = .fault := by decide

theorem witness_RegisterLoad_last : (atIndex 0xF265 0xFFD).index.toNat + (2 : Reg).val ≤ 0xFFF := by decide
theorem witness_RegisterLoad_beyond_memory : (atIndex 0xF265 0xFFE).index.toNat + (2 : Reg).val > 0xFFF := by decide

theorem witness_LoadAfterStoreRestores :
    (atIndex 0xF255 0x300).index.toNat + (2 : Reg).val ≤ 0xFFF ∧ 0x04F < (atIndex 0xF255 0x300).index.toNat ∧
      ∃ t, exec (.ldMiVx 2) (atIndex 0xF255 0x300) = .next t ∧ Same .params t (t.setIndex 0x300) ∧
        Same .mem t (t.setIndex 0x300) ∧ (t.setIndex 0x300).index = (atIndex 0xF255 0x300).index ∧
        (2 : Reg).val ≤ (2 : Reg).val ∧ (2 : Reg).val < (3 : Reg).val :=
  ⟨by decide, by decide, _, rfl, rfl, fun _ => rfl, by decide, by decide, by decide⟩

theorem witness_StoredWordIsFetched :
    1 ≤ (1 : Reg).val ∧ (atIndex 0xF155 0x300).index.toNat + (1 : Reg).val ≤ 0xFFF ∧
      0x04F < (atIndex 0xF155 0x300).index.toNat ∧ ∃ t, exec (.ldMiVx 1) (atIndex 0xF155 0x300) = .next t :=
  ⟨by decide, by decide, by decide, _, rfl⟩

/-- G3's state: the sprite C0 80 at 0x300, the origin (3, 2). -/
def g3 : State := withRegs (withBytes (atIndex 0xD012 0x300) 0x300 [0xC0, 0x80]) [(0, 3), (1, 2)]

theorem g3_readable : SpriteReadable g3 2 := .inr (by decide)

theorem witness_DrawInvertsTheCoveredPixels :
    SpriteReadable g3 2 ∧ (g3.params.sprite = .reject → SpriteOnScreen g3 0 1 2) ∧
      Covers g3 0 1 2 4 2 ∧ (∀ px py, Covers g3 0 1 2 px py → g3.pixel px py = false) :=
  ⟨g3_readable, fun h => absurd h (by decide), ⟨0, 1, ⟨by decide, by decide, by decide⟩, by decide, by decide⟩, fun px py _ => by
    simp [g3, withRegs, withBytes, State.copyBytes, State.pixel, State.setReg, State.writeByte, atIndex, State.setIndex,
      at200, State.withFetchWord, State.placeWord, State.reset, State.resetWith, Framebuffer.pixel, blankScreen]⟩
theorem witness_DrawInvertsTheCoveredPixels_not_covered : ¬ Covers g3 0 1 2 5 2 := by
  rintro ⟨r, c, ⟨hr, hc, hb⟩, h₁, h₂⟩
  have h₁' : 3 + c = 5 := h₁
  have h₂' : 2 + r = 2 := h₂
  obtain rfl : c = 2 := by omega
  obtain rfl : r = 0 := by omega
  revert hb; decide
theorem witness_DrawInvertsTheCoveredPixels_hit :
    ∃ px py, Covers g3 0 1 2 px py ∧ ({ g3 with fb := Framebuffer.toggle blankScreen 4 2 } : State).pixel px py = true :=
  ⟨4, 2, ⟨0, 1, ⟨by decide, by decide, by decide⟩, by decide, by decide⟩, by decide⟩
theorem witness_DrawInvertsTheCoveredPixels_under_reject :
    (withPolicies g3 .reject .fault).params.sprite = .reject ∧ SpriteOnScreen (withPolicies g3 .reject .fault) 0 1 2 := by
  refine ⟨by decide, fun r c ⟨hr, hc, _⟩ => ⟨?_, ?_⟩⟩
  · show 3 + c < 64; omega
  · have hr' : r < 2 := hr
    show 2 + r < 32; omega
theorem witness_DrawTwiceRestores :
    SpriteReadable g3 2 ∧ (g3.params.sprite = .reject → SpriteOnScreen g3 0 1 2) ∧
      ∃ t, exec (.drw 0 1 2) g3 = .next t ∧ Same .screen t t ∧ Same .params t t ∧ Same .mem t t ∧ t.index = g3.index ∧
        t.reg 0 = g3.reg 0 ∧ t.reg 1 = g3.reg 1 :=
  ⟨g3_readable, fun h => absurd h (by decide), _, rfl, fun _ _ => rfl, rfl, fun _ => rfl, by decide, by decide, by decide⟩
theorem witness_DrawHaltsBeforeAnyWrite_memory : ¬ SpriteReadable (atIndex 0xD012 0xFFF) 2 := by
  rintro (h | h) <;> revert h <;> decide
theorem witness_DrawHaltsBeforeAnyWrite_last_byte : SpriteReadable (atIndex 0xD011 0xFFF) 1 := .inr (by decide)

/-- G12's state: the sprite F0 80 at 0x300, the origin (62, 31), the policy `reject`. -/
def g12 : State :=
  withPolicies (withRegs (withBytes (atIndex 0xD012 0x300) 0x300 [0xF0, 0x80]) [(0, 62), (1, 31)]) .reject .fault

theorem witness_DrawHaltsBeforeAnyWrite_sprite :
    SpriteReadable g12 2 ∧ g12.params.sprite = .reject ∧ ¬ SpriteOnScreen g12 0 1 2 := by
  refine ⟨.inr (by decide), by decide, fun h => ?_⟩
  have h' := (h 0 2 ⟨by decide, by decide, by decide⟩).1
  revert h'; decide

theorem witness_KeySkips_key_15 : ((withRegs (at200 0xE29E) [(2, 0xF)]).reg 2).toNat = (15 : Fin 16).val := by decide
theorem witness_KeySkips_no_key : ((withRegs (at200 0xE29E) [(2, 0x10)]).reg 2).toNat > 0xF := by decide
theorem witness_WaitForKey_pressed :
    (((at200 0xF50A).setKey 9 true).setKey 3 true).key[(3 : Fin 16).val] = true ∧
      ∀ j : Fin 16, j < 3 → (((at200 0xF50A).setKey 9 true).setKey 3 true).key[j.val] = false := by decide
theorem witness_WaitForKey_none :
    (∀ k : Fin 16, (at200 0xF50A).key[k.val] = false) ∧ (at200 0xF50A).run = .running ∧
      (at200 0xF50A).fetch = some 0xF50A ∧ decodeWord 0xF50A = some (.ldVxK 5) := by decide

/-- Slot 0 as in the state of C5, every other slot different. -/
def otherSlots : Vector Word 16 := (Vector.replicate 16 0).set 0 0x250

theorem witness_StaleSlotsAreUnobservable :
    (∀ j : Fin 16, j.val < (withStack (at200 0x00EE) 1 0x250).sp.val →
      otherSlots[j.val] = (withStack (at200 0x00EE) 1 0x250).slot j) ∧
    otherSlots[5] ≠ (withStack (at200 0x00EE) 1 0x250).slot 5 := by decide

end Sys2Proof.Tests
end

/-!
PROOFS of the family spec/10_state.md. First the rules they are made of: what each operation leaves alone, and what an
instruction with a check does in each of its cases. The statements follow, the frame first.
-/

namespace Sys2Proof.Machine

/-! ### Readings of the parts as an equivalence -/

@[simp] theorem Same.refl (p : Part) (s : State) : Same p s s := by
  cases p <;> simp [Same]

theorem Same.symm {p : Part} {s t : State} (h : Same p s t) : Same p t s := by
  cases p <;> simp_all [Same]

theorem Same.trans {p : Part} {s t u : State} (h : Same p s t) (h' : Same p t u) : Same p s u := by
  cases p <;> simp_all [Same]

@[simp] theorem frameExcept_refl (ps : List Part) (s : State) : FrameExcept ps s s := fun p _ => Same.refl p s

/-- A write to parts that a frame excepts makes no difference to it. -/
theorem FrameExcept.absorb {ps qs : List Part} {s t u : State} (hw : FrameExcept qs t u) (hq : qs ⊆ ps) :
    FrameExcept ps s u ↔ FrameExcept ps s t :=
  forall₂_congr fun p hp =>
    have htu : Same p t u := hw p fun h => hp (hq h)
    ⟨fun h => h.trans htu.symm, fun h => h.trans htu⟩

theorem FrameExcept.regsExcept {ps : List Part} {s t : State} (h : FrameExcept ps s t) (hp : .regs ∉ ps)
    (rs : List Reg) :
    RegsExcept rs s t := fun r _ => h .regs hp r

theorem FrameExcept.bytesExcept {ps : List Part} {s t : State} (h : FrameExcept ps s t) (hp : .mem ∉ ps)
    (as : List Nat) : BytesExcept as s t := fun a _ => h .mem hp a

/-! ### The parts each operation writes

The listed part is excluded by the premise; every other one reads the same by the field laws of the operation. -/

theorem setReg_frame (s : State) (r : Reg) (b : Byte) : FrameExcept [.regs] s (s.setReg r b) :=
  fun p hp => by cases p <;> simp_all [Same]
theorem setIndex_frame (s : State) (w : Word) : FrameExcept [.index] s (s.setIndex w) :=
  fun p hp => by cases p <;> simp_all [Same]
theorem setPc_frame (s : State) (w : Word) : FrameExcept [.pc] s (s.setPc w) :=
  fun p hp => by cases p <;> simp_all [Same]
theorem setDelay_frame (s : State) (b : Byte) : FrameExcept [.delay] s (s.setDelay b) :=
  fun p hp => by cases p <;> simp_all [Same]
theorem setSound_frame (s : State) (b : Byte) : FrameExcept [.sound] s (s.setSound b) :=
  fun p hp => by cases p <;> simp_all [Same]
theorem countDraw_frame (s : State) : FrameExcept [.draws] s s.countDraw :=
  fun p hp => by cases p <;> simp_all [Same]
theorem writeByte_frame (s : State) (a : Nat) (b : Byte) : FrameExcept [.mem] s (s.writeByte a b) :=
  fun p hp => by cases p <;> simp_all [Same]
theorem setScreen_frame (s : State) (fb : Framebuffer) : FrameExcept [.screen, .redraw] s (s.setScreen fb) :=
  fun p hp => by cases p <;> simp_all [Same]
theorem raiseHalt_frame (s : State) (reason : HaltReason) (op : Word) :
    FrameExcept [.run] s (s.raiseHalt reason op) :=
  fun p hp => by cases p <;> simp_all [Same]
theorem setKey_frame (s : State) (k : Fin 16) (b : Bool) : FrameExcept [.keys] s (s.setKey k b) :=
  fun p hp => by cases p <;> simp_all [Same]

/-- The state with the stack `σ` and the stack pointer `n`: what CALL and RET write. -/
def State.withCalls (s : State) (σ : Vector Word 16) (n : Fin 17) : State := { s with stack := σ, sp := n }

theorem withCalls_frame (s : State) (σ : Vector Word 16) (n : Fin 17) :
    FrameExcept [.stack] s (s.withCalls σ n) :=
  fun p hp => by cases p <;> simp_all [Same, State.withCalls, State.reg, State.pixel, State.readByte]

/-- FX55's stores write memory alone (R144). -/
theorem storeRegs_frame (s : State) (rs : List Reg) : FrameExcept [.mem] s (s.storeRegs rs) := by
  rw [storeRegs_eq]
  exact fun p hp => by cases p <;> simp_all [Same, State.reg, State.pixel, State.slot]

/-- FX65's loads write the registers alone (R145). -/
theorem loadRegs_frame (s : State) (rs : List Reg) : FrameExcept [.regs] s (s.loadRegs rs) := by
  rw [loadRegs_eq]
  exact fun p hp => by cases p <;> simp_all [Same, State.readByte, State.pixel, State.slot]

theorem drawBits_frame (s : State) (bits : List (Nat × Nat)) :
    FrameExcept [.regs, .screen, .redraw] s (s.drawBits bits) :=
  ((setScreen_frame _ _).absorb (by simp)).2 (((setReg_frame s _ _).absorb (by simp)).2 (frameExcept_refl _ _))

section
variable {ps : List Part} {s t : State}

@[simp] theorem frameExcept_setReg (h : .regs ∈ ps) (r : Reg) (b : Byte) :
    FrameExcept ps s (t.setReg r b) ↔ FrameExcept ps s t := (setReg_frame t r b).absorb (by simpa)
@[simp] theorem frameExcept_setIndex (h : .index ∈ ps) (w : Word) :
    FrameExcept ps s (t.setIndex w) ↔ FrameExcept ps s t := (setIndex_frame t w).absorb (by simpa)
@[simp] theorem frameExcept_setPc (h : .pc ∈ ps) (w : Word) :
    FrameExcept ps s (t.setPc w) ↔ FrameExcept ps s t := (setPc_frame t w).absorb (by simpa)
@[simp] theorem frameExcept_advance (h : .pc ∈ ps) :
    FrameExcept ps s t.advance ↔ FrameExcept ps s t := frameExcept_setPc h _
@[simp] theorem frameExcept_skipIf (h : .pc ∈ ps) (c : Bool) :
    FrameExcept ps s (t.skipIf c) ↔ FrameExcept ps s t := frameExcept_setPc h _
@[simp] theorem frameExcept_setDelay (h : .delay ∈ ps) (b : Byte) :
    FrameExcept ps s (t.setDelay b) ↔ FrameExcept ps s t := (setDelay_frame t b).absorb (by simpa)
@[simp] theorem frameExcept_setSound (h : .sound ∈ ps) (b : Byte) :
    FrameExcept ps s (t.setSound b) ↔ FrameExcept ps s t := (setSound_frame t b).absorb (by simpa)
@[simp] theorem frameExcept_countDraw (h : .draws ∈ ps) :
    FrameExcept ps s t.countDraw ↔ FrameExcept ps s t := (countDraw_frame t).absorb (by simpa)
@[simp] theorem frameExcept_writeByte (h : .mem ∈ ps) (a : Nat) (b : Byte) :
    FrameExcept ps s (t.writeByte a b) ↔ FrameExcept ps s t := (writeByte_frame t a b).absorb (by simpa)
@[simp] theorem frameExcept_setScreen (hs : .screen ∈ ps) (hr : .redraw ∈ ps) (fb : Framebuffer) :
    FrameExcept ps s (t.setScreen fb) ↔ FrameExcept ps s t := (setScreen_frame t fb).absorb (by simp [hs, hr])
@[simp] theorem frameExcept_raiseHalt (h : .run ∈ ps) (reason : HaltReason) (op : Word) :
    FrameExcept ps s (t.raiseHalt reason op) ↔ FrameExcept ps s t := (raiseHalt_frame t reason op).absorb (by simpa)
@[simp] theorem frameExcept_storeRegs (h : .mem ∈ ps) (rs : List Reg) :
    FrameExcept ps s (t.storeRegs rs) ↔ FrameExcept ps s t := (storeRegs_frame t rs).absorb (by simpa)
@[simp] theorem frameExcept_loadRegs (h : .regs ∈ ps) (rs : List Reg) :
    FrameExcept ps s (t.loadRegs rs) ↔ FrameExcept ps s t := (loadRegs_frame t rs).absorb (by simpa)
@[simp] theorem frameExcept_drawBits (hv : .regs ∈ ps) (hs : .screen ∈ ps) (hr : .redraw ∈ ps)
    (bits : List (Nat × Nat)) : FrameExcept ps s (t.drawBits bits) ↔ FrameExcept ps s t :=
  (drawBits_frame t bits).absorb (by simp [hv, hs, hr])
@[simp] theorem frameExcept_withCalls (h : .stack ∈ ps) (σ : Vector Word 16) (n : Fin 17) :
    FrameExcept ps s (t.withCalls σ n) ↔ FrameExcept ps s t := (withCalls_frame t σ n).absorb (by simpa)

end

/-! ### Instructions with a check, case by case -/

section
variable {s : State}

theorem exec_ret_of_slot {j : Fin 16} (h : s.sp.val = j.val + 1) :
    exec .ret s = .next ((s.withCalls s.stack ⟨j.val, by omega⟩).setPc (s.slot j + 2)) := by
  simp only [exec, execRet, pop_of_eq s j h, State.withCalls]

theorem exec_ret_of_empty (h : s.sp.val = 0) :
    exec .ret s = .next (s.raiseHalt .stackUnderflow (encodeWord .ret)) := by
  simp only [exec, execRet, pop_of_empty s h]

theorem exec_call_of_room (nnn : BitVec 12) (h : s.sp.val < 16) :
    exec (.call nnn) s = .next
      ((s.withCalls (s.stack.set s.sp.val s.pc) ⟨s.sp.val + 1, by omega⟩).setPc (wordOfNnn nnn)) := by
  simp only [exec, execCall, State.push, dif_pos h, State.withCalls]

theorem exec_call_of_full (nnn : BitVec 12) (h : s.sp.val = 16) :
    exec (.call nnn) s = .next (s.raiseHalt .stackOverflow (encodeWord (.call nnn))) := by
  simp only [exec, execCall, push_of_full s s.pc h]

theorem exec_drw_of_unreadable (x y : Reg) {n : BitVec 4} (h : ¬ SpriteReadable s n) :
    exec (.drw x y n) s = .next (s.raiseHalt .memoryOutOfRange (encodeWord (.drw x y n))) :=
  if_pos ((spriteUnreadable_iff s n).2 h)

theorem exec_drw_of_offScreen {x y : Reg} {n : BitVec 4} (h : SpriteReadable s n) (hp : s.params.sprite = .reject)
    (ho : ¬ SpriteOnScreen s x y n) :
    exec (.drw x y n) s = .next (s.raiseHalt .spriteOutOfBounds (encodeWord (.drw x y n))) :=
  (if_neg fun hu => (spriteUnreadable_iff s n).1 hu h).trans
    (if_pos ⟨hp, Bool.eq_false_iff.2 fun ha => ho ((all_onScreen_iff s x y n).1 ha)⟩)

theorem exec_drw_of_drawn {x y : Reg} {n : BitVec 4} (h : SpriteReadable s n)
    (ho : s.params.sprite = .reject → SpriteOnScreen s x y n) :
    exec (.drw x y n) s =
      .next (s.drawBits (s.spriteBits (s.reg x).toNat (s.reg y).toNat n.toNat)).advance :=
  (if_neg fun hu => (spriteUnreadable_iff s n).1 hu h).trans
    (if_neg fun ⟨hp, ha⟩ => Bool.eq_false_iff.1 ha ((all_onScreen_iff s x y n).2 (ho hp)))

theorem exec_skp_of_key {x : Reg} {k : Fin 16} (h : (s.reg x).toNat = k.val) :
    exec (.skp x) s = .next (s.skipIf s.key[k.val]) := by
  simp only [exec, execSkp, keyAt_of_lt s _ k h]

theorem exec_skp_of_no_key {x : Reg} (h : (s.reg x).toNat > 0xF) :
    exec (.skp x) s = .next (s.raiseHalt .keyIndexOutOfRange (encodeWord (.skp x))) := by
  simp only [exec, execSkp, keyAt_of_ge s _ h]

theorem exec_sknp_of_key {x : Reg} {k : Fin 16} (h : (s.reg x).toNat = k.val) :
    exec (.sknp x) s = .next (s.skipIf (!s.key[k.val])) := by
  simp only [exec, execSknp, keyAt_of_lt s _ k h]

theorem exec_sknp_of_no_key {x : Reg} (h : (s.reg x).toNat > 0xF) :
    exec (.sknp x) s = .next (s.raiseHalt .keyIndexOutOfRange (encodeWord (.sknp x))) := by
  simp only [exec, execSknp, keyAt_of_ge s _ h]

theorem exec_ldVxK_of_key (x : Reg) {k : Fin 16} (h : s.firstKey = some k) :
    exec (.ldVxK x) s = .next (s.setReg x (BitVec.ofNat 8 k.val)).advance := by
  simp only [exec, execLdVxK, h]

theorem exec_ldVxK_of_no_key (x : Reg) (h : s.firstKey = none) : exec (.ldVxK x) s = .next s := by
  simp only [exec, execLdVxK, h]

theorem exec_ldBVx_of_outOfRange (x : Reg) (h : s.dataOutOfRange 2 = true) :
    exec (.ldBVx x) s = .next (s.raiseHalt .memoryOutOfRange (encodeWord (.ldBVx x))) := by
  simp only [exec, execLdBVx, if_pos h]

theorem exec_ldBVx_of_font (x : Reg) (h : s.dataOutOfRange 2 = false) (hf : s.fontForbids = true) :
    exec (.ldBVx x) s = .next (s.raiseHalt .fontWrite (encodeWord (.ldBVx x))) := by
  simp [exec, execLdBVx, h, hf]

theorem exec_ldBVx_of_stored (x : Reg) (h : s.dataOutOfRange 2 = false) (hf : s.fontForbids = false) :
    exec (.ldBVx x) s = .next (((s.writeByte (s.dataAddr 0) (bcdHundreds (s.reg x))).writeByte (s.dataAddr 1)
      (bcdTens (s.reg x))).writeByte (s.dataAddr 2) (bcdOnes (s.reg x))).advance := by
  simp [exec, execLdBVx, h, hf]

theorem exec_ldMiVx_of_outOfRange {x : Reg} (h : s.dataOutOfRange x.val = true) :
    exec (.ldMiVx x) s = .next (s.raiseHalt .memoryOutOfRange (encodeWord (.ldMiVx x))) := by
  simp only [exec, execLdMiVx, if_pos h]

theorem exec_ldMiVx_of_font {x : Reg} (h : s.dataOutOfRange x.val = false) (hf : s.fontForbids = true) :
    exec (.ldMiVx x) s = .next (s.raiseHalt .fontWrite (encodeWord (.ldMiVx x))) := by
  simp [exec, execLdMiVx, h, hf]

theorem exec_ldMiVx_of_stored {x : Reg} (h : s.dataOutOfRange x.val = false) (hf : s.fontForbids = false) :
    exec (.ldMiVx x) s =
      .next ((s.storeRegs (regsUpTo x)).setIndex (s.index + BitVec.ofNat 16 (x.val + 1))).advance := by
  simp [exec, execLdMiVx, h, hf]

theorem exec_ldVxMi_of_outOfRange {x : Reg} (h : s.dataOutOfRange x.val = true) :
    exec (.ldVxMi x) s = .next (s.raiseHalt .memoryOutOfRange (encodeWord (.ldVxMi x))) := by
  simp only [exec, execLdVxMi, if_pos h]

theorem exec_ldVxMi_of_loaded {x : Reg} (h : s.dataOutOfRange x.val = false) :
    exec (.ldVxMi x) s =
      .next ((s.loadRegs (regsUpTo x)).setIndex (s.index + BitVec.ofNat 16 (x.val + 1))).advance := by
  simp [exec, execLdVxMi, h]

end

/-! ### Every way an instruction with a check can answer -/

section
variable {s t : State}

theorem exec_ret_cases (h : exec .ret s = .next t) :
    (s.sp.val = 0 ∧ t = s.raiseHalt .stackUnderflow (encodeWord .ret)) ∨
    (∃ j : Fin 16, ∃ hj : s.sp.val = j.val + 1,
      t = (s.withCalls s.stack ⟨j.val, by omega⟩).setPc (s.slot j + 2)) := by
  rcases Nat.eq_zero_or_pos s.sp.val with h0 | hpos
  · rw [exec_ret_of_empty h0] at h; cases h; exact .inl ⟨h0, rfl⟩
  · obtain ⟨j, hj⟩ : ∃ j : Fin 16, s.sp.val = j.val + 1 := ⟨⟨s.sp.val - 1, by omega⟩, by simp; omega⟩
    rw [exec_ret_of_slot hj] at h; cases h; exact .inr ⟨j, hj, rfl⟩

theorem exec_call_cases {nnn : BitVec 12} (h : exec (.call nnn) s = .next t) :
    (s.sp.val = 16 ∧ t = s.raiseHalt .stackOverflow (encodeWord (.call nnn))) ∨
    (∃ hs : s.sp.val < 16,
      t = (s.withCalls (s.stack.set s.sp.val s.pc) ⟨s.sp.val + 1, by omega⟩).setPc (wordOfNnn nnn)) := by
  by_cases hs : s.sp.val < 16
  · rw [exec_call_of_room nnn hs] at h; cases h; exact .inr ⟨hs, rfl⟩
  · have hf : s.sp.val = 16 := by omega
    rw [exec_call_of_full nnn hf] at h; cases h; exact .inl ⟨hf, rfl⟩

theorem exec_drw_cases {x y : Reg} {n : BitVec 4} (h : exec (.drw x y n) s = .next t) :
    (¬ SpriteReadable s n ∧ t = s.raiseHalt .memoryOutOfRange (encodeWord (.drw x y n))) ∨
    (SpriteReadable s n ∧ s.params.sprite = .reject ∧ ¬ SpriteOnScreen s x y n ∧
      t = s.raiseHalt .spriteOutOfBounds (encodeWord (.drw x y n))) ∨
    (SpriteReadable s n ∧ (s.params.sprite = .reject → SpriteOnScreen s x y n) ∧
      t = (s.drawBits (s.spriteBits (s.reg x).toNat (s.reg y).toNat n.toNat)).advance) := by
  by_cases hr : SpriteReadable s n
  · right
    by_cases ho : s.params.sprite = .reject → SpriteOnScreen s x y n
    · rw [exec_drw_of_drawn hr ho] at h; cases h; exact .inr ⟨hr, ho, rfl⟩
    · obtain ⟨hp, ho⟩ := Classical.not_imp.1 ho
      rw [exec_drw_of_offScreen hr hp ho] at h; cases h; exact .inl ⟨hr, hp, ho, rfl⟩
  · rw [exec_drw_of_unreadable x y hr] at h; cases h; exact .inl ⟨hr, rfl⟩

/-- A register is a key's number or above every one of them. -/
theorem key_index_cases (b : Byte) : b.toNat > 0xF ∨ ∃ k : Fin 16, b.toNat = k.val := by
  by_cases h : b.toNat > 0xF
  · exact .inl h
  · exact .inr ⟨⟨b.toNat, by omega⟩, rfl⟩

theorem exec_skp_cases {x : Reg} (h : exec (.skp x) s = .next t) :
    ((s.reg x).toNat > 0xF ∧ t = s.raiseHalt .keyIndexOutOfRange (encodeWord (.skp x))) ∨
    (∃ k : Fin 16, (s.reg x).toNat = k.val ∧ t = s.skipIf s.key[k.val]) := by
  rcases key_index_cases (s.reg x) with hk | ⟨k, hk⟩
  · rw [exec_skp_of_no_key hk] at h; cases h; exact .inl ⟨hk, rfl⟩
  · rw [exec_skp_of_key hk] at h; cases h; exact .inr ⟨k, hk, rfl⟩

theorem exec_sknp_cases {x : Reg} (h : exec (.sknp x) s = .next t) :
    ((s.reg x).toNat > 0xF ∧ t = s.raiseHalt .keyIndexOutOfRange (encodeWord (.sknp x))) ∨
    (∃ k : Fin 16, (s.reg x).toNat = k.val ∧ t = s.skipIf (!s.key[k.val])) := by
  rcases key_index_cases (s.reg x) with hk | ⟨k, hk⟩
  · rw [exec_sknp_of_no_key hk] at h; cases h; exact .inl ⟨hk, rfl⟩
  · rw [exec_sknp_of_key hk] at h; cases h; exact .inr ⟨k, hk, rfl⟩

theorem exec_ldVxK_cases {x : Reg} (h : exec (.ldVxK x) s = .next t) :
    (s.firstKey = none ∧ t = s) ∨
    (∃ k, s.firstKey = some k ∧ t = (s.setReg x (BitVec.ofNat 8 k.val)).advance) := by
  cases hk : s.firstKey with
  | none => rw [exec_ldVxK_of_no_key x hk] at h; cases h; exact .inl ⟨rfl, rfl⟩
  | some k => rw [exec_ldVxK_of_key x hk] at h; cases h; exact .inr ⟨k, rfl, rfl⟩

theorem exec_ldBVx_cases {x : Reg} (h : exec (.ldBVx x) s = .next t) :
    (s.dataOutOfRange 2 = true ∧ t = s.raiseHalt .memoryOutOfRange (encodeWord (.ldBVx x))) ∨
    (s.dataOutOfRange 2 = false ∧ s.fontForbids = true ∧ t = s.raiseHalt .fontWrite (encodeWord (.ldBVx x))) ∨
    (s.dataOutOfRange 2 = false ∧ s.fontForbids = false ∧
      t = (((s.writeByte (s.dataAddr 0) (bcdHundreds (s.reg x))).writeByte (s.dataAddr 1)
        (bcdTens (s.reg x))).writeByte (s.dataAddr 2) (bcdOnes (s.reg x))).advance) := by
  cases hr : s.dataOutOfRange 2 with
  | true => rw [exec_ldBVx_of_outOfRange x hr] at h; cases h; exact .inl ⟨rfl, rfl⟩
  | false =>
    cases hf : s.fontForbids with
    | true => rw [exec_ldBVx_of_font x hr hf] at h; cases h; exact .inr (.inl ⟨rfl, rfl, rfl⟩)
    | false => rw [exec_ldBVx_of_stored x hr hf] at h; cases h; exact .inr (.inr ⟨rfl, rfl, rfl⟩)

theorem exec_ldMiVx_cases {x : Reg} (h : exec (.ldMiVx x) s = .next t) :
    (s.dataOutOfRange x.val = true ∧ t = s.raiseHalt .memoryOutOfRange (encodeWord (.ldMiVx x))) ∨
    (s.dataOutOfRange x.val = false ∧ s.fontForbids = true ∧
      t = s.raiseHalt .fontWrite (encodeWord (.ldMiVx x))) ∨
    (s.dataOutOfRange x.val = false ∧ s.fontForbids = false ∧
      t = ((s.storeRegs (regsUpTo x)).setIndex (s.index + BitVec.ofNat 16 (x.val + 1))).advance) := by
  cases hr : s.dataOutOfRange x.val with
  | true => rw [exec_ldMiVx_of_outOfRange hr] at h; cases h; exact .inl ⟨rfl, rfl⟩
  | false =>
    cases hf : s.fontForbids with
    | true => rw [exec_ldMiVx_of_font hr hf] at h; cases h; exact .inr (.inl ⟨rfl, rfl, rfl⟩)
    | false => rw [exec_ldMiVx_of_stored hr hf] at h; cases h; exact .inr (.inr ⟨rfl, rfl, rfl⟩)

theorem exec_ldVxMi_cases {x : Reg} (h : exec (.ldVxMi x) s = .next t) :
    (s.dataOutOfRange x.val = true ∧ t = s.raiseHalt .memoryOutOfRange (encodeWord (.ldVxMi x))) ∨
    (s.dataOutOfRange x.val = false ∧
      t = ((s.loadRegs (regsUpTo x)).setIndex (s.index + BitVec.ofNat 16 (x.val + 1))).advance) := by
  cases hr : s.dataOutOfRange x.val with
  | true => rw [exec_ldVxMi_of_outOfRange hr] at h; cases h; exact .inl ⟨rfl, rfl⟩
  | false => rw [exec_ldVxMi_of_loaded hr] at h; cases h; exact .inr ⟨rfl, rfl⟩

end

/-! ### The frame of every instruction -/

section
variable {i : Instr} {s t : State}

theorem exec_frame (h : exec i s = .next t) : FrameExcept (partsWritten i) s t := by
  cases i with
  | ret => rcases exec_ret_cases h with ⟨-, rfl⟩ | ⟨j, -, rfl⟩ <;> simp [partsWritten]
  | call => rcases exec_call_cases h with ⟨-, rfl⟩ | ⟨-, rfl⟩ <;> simp [partsWritten]
  | drw => rcases exec_drw_cases h with ⟨-, rfl⟩ | ⟨-, -, -, rfl⟩ | ⟨-, -, rfl⟩ <;> simp [partsWritten]
  | skp => rcases exec_skp_cases h with ⟨-, rfl⟩ | ⟨k, -, rfl⟩ <;> simp [partsWritten]
  | sknp => rcases exec_sknp_cases h with ⟨-, rfl⟩ | ⟨k, -, rfl⟩ <;> simp [partsWritten]
  | ldVxK => rcases exec_ldVxK_cases h with ⟨-, rfl⟩ | ⟨k, -, rfl⟩ <;> simp [partsWritten]
  | ldBVx => rcases exec_ldBVx_cases h with ⟨-, rfl⟩ | ⟨-, -, rfl⟩ | ⟨-, -, rfl⟩ <;> simp [partsWritten]
  | ldMiVx => rcases exec_ldMiVx_cases h with ⟨-, rfl⟩ | ⟨-, -, rfl⟩ | ⟨-, -, rfl⟩ <;> simp [partsWritten]
  | ldVxMi => rcases exec_ldVxMi_cases h with ⟨-, rfl⟩ | ⟨-, rfl⟩ <;> simp [partsWritten]
  | _ => cases h; simp [partsWritten, rndWith]

theorem reg_drawBits_ne (s : State) (bits : List (Nat × Nat)) {q : Reg} (h : q ≠ VF) :
    (s.drawBits bits).reg q = s.reg q := by
  simp [State.drawBits, reg_setReg_ne s _ h]

theorem exec_regsExcept (h : exec i s = .next t) : RegsExcept (regsWritten i) s t := by
  cases i with
  | ret | call | skp | sknp | ldBVx | ldMiVx => exact (exec_frame h).regsExcept (by simp [partsWritten]) _
  | drw =>
    rcases exec_drw_cases h with ⟨-, rfl⟩ | ⟨-, -, -, rfl⟩ | ⟨-, -, rfl⟩ <;>
      simp +contextual [RegsExcept, regsWritten, reg_drawBits_ne]
  | ldVxK =>
    rcases exec_ldVxK_cases h with ⟨-, rfl⟩ | ⟨k, -, rfl⟩ <;>
      simp +contextual [RegsExcept, regsWritten, reg_setReg]
  | ldVxMi =>
    rcases exec_ldVxMi_cases h with ⟨-, rfl⟩ | ⟨-, rfl⟩ <;>
      simp +contextual [RegsExcept, regsWritten, reg_loadRegs]
  | _ => cases h; simp +contextual [RegsExcept, regsWritten, reg_setReg, rndWith]

theorem exec_bytesExcept (h : exec i s = .next t) : BytesExcept (bytesStored s i) s t := by
  cases i with
  | ldBVx =>
    rcases exec_ldBVx_cases h with ⟨-, rfl⟩ | ⟨-, -, rfl⟩ | ⟨-, -, rfl⟩ <;>
      simp +contextual [BytesExcept, bytesStored, readByte_writeByte]
  | ldMiVx x =>
    rcases exec_ldMiVx_cases h with ⟨-, rfl⟩ | ⟨-, -, rfl⟩ | ⟨-, -, rfl⟩
    · simp [BytesExcept]
    · simp [BytesExcept]
    · intro a ha
      exact readByte_storeRegs_ne s _ a fun k hk he => ha (List.mem_map.2 ⟨k, hk, he.symm⟩)
  | _ => exact (exec_frame h).bytesExcept (by simp [partsWritten]) _

end

/-- Settles O16: the parts, the registers and the bytes are each a lemma over the instructions. -/
theorem everyInstructionKeepsItsFrame : Obligations.EveryInstructionKeepsItsFrame :=
  fun _ _ _ h => ⟨exec_frame h, exec_regsExcept h, exec_bytesExcept h⟩

/-! ### The invariant, field by field -/

section
variable {i : Instr} {s t : State}

theorem exec_params (h : exec i s = .next t) : t.params = s.params :=
  exec_frame h .params (by cases i <;> simp [partsWritten])

/-- An instruction leaves `run`, or raises a cause other than the two that stop a step before it executes anything. -/
theorem exec_run_cases (h : exec i s = .next t) :
    t.run = s.run ∨ ∃ reason, reason ≠ .fetchOutOfRange ∧ reason ≠ .unknownOpcode ∧
      t = s.raiseHalt reason (encodeWord i) := by
  cases i with
  | ret =>
    rcases exec_ret_cases h with ⟨-, ht⟩ | ⟨j, -, rfl⟩
    exacts [.inr ⟨_, by simp, by simp, ht⟩, .inl rfl]
  | call =>
    rcases exec_call_cases h with ⟨-, ht⟩ | ⟨-, rfl⟩
    exacts [.inr ⟨_, by simp, by simp, ht⟩, .inl rfl]
  | drw =>
    rcases exec_drw_cases h with ⟨-, ht⟩ | ⟨-, -, -, ht⟩ | ⟨-, -, rfl⟩
    exacts [.inr ⟨_, by simp, by simp, ht⟩, .inr ⟨_, by simp, by simp, ht⟩, .inl rfl]
  | skp =>
    rcases exec_skp_cases h with ⟨-, ht⟩ | ⟨k, -, rfl⟩
    exacts [.inr ⟨_, by simp, by simp, ht⟩, .inl rfl]
  | sknp =>
    rcases exec_sknp_cases h with ⟨-, ht⟩ | ⟨k, -, rfl⟩
    exacts [.inr ⟨_, by simp, by simp, ht⟩, .inl rfl]
  | ldBVx =>
    rcases exec_ldBVx_cases h with ⟨-, ht⟩ | ⟨-, -, ht⟩ | ⟨-, -, rfl⟩
    exacts [.inr ⟨_, by simp, by simp, ht⟩, .inr ⟨_, by simp, by simp, ht⟩, .inl rfl]
  | ldMiVx x =>
    rcases exec_ldMiVx_cases h with ⟨-, ht⟩ | ⟨-, -, ht⟩ | ⟨-, -, rfl⟩
    exacts [.inr ⟨_, by simp, by simp, ht⟩, .inr ⟨_, by simp, by simp, ht⟩,
      .inl (storeRegs_frame s _ .run (by simp))]
  | ldVxMi x =>
    rcases exec_ldVxMi_cases h with ⟨-, ht⟩ | ⟨-, rfl⟩
    exacts [.inr ⟨_, by simp, by simp, ht⟩, .inl (loadRegs_frame s _ .run (by simp))]
  | _ => exact .inl (exec_frame h .run (by simp [partsWritten]))

/-- The range check is made on the last address of a data access and covers those below it (R55). -/
theorem dataAddr_le_of_inRange {last k : Nat} (h : s.dataOutOfRange last = false) (hk : k ≤ last) :
    s.dataAddr k ≤ addrMax := by
  have hn : ¬ s.index.toNat + last > 0xFFF := fun hl => by simp [(dataOutOfRange_iff s last).2 hl] at h
  simp only [State.dataAddr, addrMax]; omega

theorem exec_memWf (hw : Memory.wf s.params s.mem) (h : exec i s = .next t) : Memory.wf s.params t.mem := by
  cases i with
  | ret => rcases exec_ret_cases h with ⟨-, rfl⟩ | ⟨j, -, rfl⟩ <;> exact hw
  | call => rcases exec_call_cases h with ⟨-, rfl⟩ | ⟨-, rfl⟩ <;> exact hw
  | drw => rcases exec_drw_cases h with ⟨-, rfl⟩ | ⟨-, -, -, rfl⟩ | ⟨-, -, rfl⟩ <;> exact hw
  | skp => rcases exec_skp_cases h with ⟨-, rfl⟩ | ⟨k, -, rfl⟩ <;> exact hw
  | sknp => rcases exec_sknp_cases h with ⟨-, rfl⟩ | ⟨k, -, rfl⟩ <;> exact hw
  | ldVxK => rcases exec_ldVxK_cases h with ⟨-, rfl⟩ | ⟨k, -, rfl⟩ <;> exact hw
  | ldBVx =>
    rcases exec_ldBVx_cases h with ⟨-, rfl⟩ | ⟨-, -, rfl⟩ | ⟨hr, -, rfl⟩
    · exact hw
    · exact hw
    · exact Memory.wf_writeByte _ (Memory.wf_writeByte _ (Memory.wf_writeByte _ hw
        (dataAddr_le_of_inRange hr (by omega))) (dataAddr_le_of_inRange hr (by omega)))
        (dataAddr_le_of_inRange hr (by omega))
  | ldMiVx x =>
    rcases exec_ldMiVx_cases h with ⟨-, rfl⟩ | ⟨-, -, rfl⟩ | ⟨hr, -, rfl⟩
    · exact hw
    · exact hw
    · exact wf_foldl_writeByte (fun k : Reg => s.dataAddr k.val) s.reg (regsUpTo x) s rfl hw fun k hk =>
        dataAddr_le_of_inRange hr ((mem_regsUpTo x k).1 hk)
  | ldVxMi x =>
    rcases exec_ldVxMi_cases h with ⟨-, rfl⟩ | ⟨-, rfl⟩
    · exact hw
    · show Memory.wf s.params (s.loadRegs (regsUpTo x)).mem
      rw [loadRegs_eq]; exact hw
  | _ => cases h; exact hw

/-- Under the `fault` policy the font check stops every store that begins at or below 0x04F, and all others lie above. -/
theorem exec_keeps_font {a : Nat} (hp : s.params.fontWrite = .fault) (ha : a ≤ 0x04F) (h : exec i s = .next t) :
    t.readByte a = s.readByte a := by
  have above (hf : s.fontForbids = false) (k : Nat) : a ≠ s.dataAddr k := by
    have hn : ¬ s.index.toNat ≤ 0x04F := fun hi => by simp [(fontForbids_iff s).2 ⟨hp, hi⟩] at hf
    simp only [State.dataAddr]; omega
  cases i with
  | ldBVx x =>
    rcases exec_ldBVx_cases h with ⟨-, rfl⟩ | ⟨-, -, rfl⟩ | ⟨-, hf, rfl⟩
    · rfl
    · rfl
    · exact exec_bytesExcept h a (by simp [bytesStored, above hf])
  | ldMiVx x =>
    rcases exec_ldMiVx_cases h with ⟨-, rfl⟩ | ⟨-, -, rfl⟩ | ⟨-, hf, rfl⟩
    · rfl
    · rfl
    · exact exec_bytesExcept h a (by simp [bytesStored, (above hf _).symm])
  | _ => exact exec_bytesExcept h a (by simp [bytesStored])

theorem advance_pc_le {u : State} (h : u.pc.toNat ≤ 0xFFE) : u.advance.pc.toNat ≤ 0x10FE := by
  rw [advance_pc_toNat]; omega

theorem skipIf_pc_le {u : State} (h : u.pc.toNat ≤ 0xFFE) (c : Bool) : (u.skipIf c).pc.toNat ≤ 0x10FE := by
  rw [skipIf_pc_toNat]; split <;> omega

theorem wordOfNnn_le (nnn : BitVec 12) : (wordOfNnn nnn).toNat ≤ 0xFFF := by
  rw [wordOfNnn_toNat]; omega

/-- The largest pc an instruction forms is that of JP_V0, 0xFFF + 0xFF (R107). -/
theorem exec_pc_le (hp : s.pc.toNat ≤ 0xFFE) (hs : ∀ j : Fin 16, j.val < s.sp.val → (s.slot j).toNat ≤ 0xFFE)
    (h : exec i s = .next t) : t.pc.toNat ≤ 0x10FE := by
  have unmoved : s.pc.toNat ≤ 0x10FE := by omega
  cases i with
  | jp nnn => cases h; exact (wordOfNnn_le nnn).trans (by decide)
  | jpV0 nnn =>
    cases h
    have hn := wordOfNnn_le nnn
    have hb := (s.reg 0).isLt
    simp only [setPc_pc, BitVec.toNat_add, wordOfByte_toNat]; omega
  | call nnn =>
    rcases exec_call_cases h with ⟨-, rfl⟩ | ⟨-, rfl⟩
    exacts [unmoved, (wordOfNnn_le nnn).trans (by decide)]
  | ret =>
    rcases exec_ret_cases h with ⟨-, rfl⟩ | ⟨j, hj, rfl⟩
    · exact unmoved
    · have := hs j (by omega)
      rw [setPc_pc]; bv_omega
  | seVxNn | sneVxNn | seVxVy | sneVxVy => cases h; exact skipIf_pc_le hp _
  | skp =>
    rcases exec_skp_cases h with ⟨-, rfl⟩ | ⟨k, -, rfl⟩
    exacts [unmoved, skipIf_pc_le hp _]
  | sknp =>
    rcases exec_sknp_cases h with ⟨-, rfl⟩ | ⟨k, -, rfl⟩
    exacts [unmoved, skipIf_pc_le hp _]
  | drw =>
    rcases exec_drw_cases h with ⟨-, rfl⟩ | ⟨-, -, -, rfl⟩ | ⟨-, -, rfl⟩
    exacts [unmoved, unmoved, advance_pc_le hp]
  | ldVxK =>
    rcases exec_ldVxK_cases h with ⟨-, rfl⟩ | ⟨k, -, rfl⟩
    exacts [unmoved, advance_pc_le hp]
  | ldBVx =>
    rcases exec_ldBVx_cases h with ⟨-, rfl⟩ | ⟨-, -, rfl⟩ | ⟨-, -, rfl⟩
    exacts [unmoved, unmoved, advance_pc_le hp]
  | ldMiVx x =>
    rcases exec_ldMiVx_cases h with ⟨-, rfl⟩ | ⟨-, -, rfl⟩ | ⟨-, -, rfl⟩
    exacts [unmoved, unmoved, advance_pc_le (by rw [setIndex_pc, storeRegs_eq]; exact hp)]
  | ldVxMi x =>
    rcases exec_ldVxMi_cases h with ⟨-, rfl⟩ | ⟨-, rfl⟩
    exacts [unmoved, advance_pc_le (by rw [setIndex_pc, loadRegs_eq]; exact hp)]
  | _ => cases h; exact advance_pc_le hp

/-- Every occupied slot still holds a fetchable address: CALL pushes its own (R101), RET uncovers no slot. -/
theorem exec_slots_le (hp : s.pc.toNat ≤ 0xFFE) (hs : ∀ j : Fin 16, j.val < s.sp.val → (s.slot j).toNat ≤ 0xFFE)
    (h : exec i s = .next t) : ∀ j : Fin 16, j.val < t.sp.val → (t.slot j).toNat ≤ 0xFFE := by
  cases i with
  | ret =>
    rcases exec_ret_cases h with ⟨-, rfl⟩ | ⟨k, hk, rfl⟩
    · exact hs
    · intro j (hj : j.val < k.val)
      exact hs j (by omega)
  | call nnn =>
    rcases exec_call_cases h with ⟨-, rfl⟩ | ⟨hr, rfl⟩
    · exact hs
    · intro j (hj : j.val < s.sp.val + 1)
      show ((s.stack.set s.sp.val s.pc)[j.val]).toNat ≤ 0xFFE
      rw [Vector.getElem_set]
      split
      · exact hp
      · exact hs j (by omega)
  | _ =>
    obtain ⟨hsp, hslot⟩ := exec_frame h .stack (by simp [partsWritten])
    intro j hj
    rw [hslot j]
    exact hs j (hsp ▸ hj)

theorem Inv.raiseHalt {reason : HaltReason} {op : Word} (hs : Inv s)
    (hr : reason = .fetchOutOfRange ↔ s.pc.toNat > 0xFFE) (ho : reason = .fetchOutOfRange → op = 0) :
    Inv (s.raiseHalt reason op) where
  memWf := hs.memWf
  fontIntact := hs.fontIntact
  pcBound := hs.pcBound
  slotsFetchable := hs.slotsFetchable
  haltRecord := by rintro _ _ _ ⟨⟩; exact ⟨rfl, hr, ho⟩

/-- The invariant speaks of nothing the tick writes. -/
theorem Inv.finish (hs : Inv s) : Inv s.finish where
  memWf := by simpa using hs.memWf
  fontIntact := by simpa using hs.fontIntact
  pcBound := by simpa using hs.pcBound
  slotsFetchable := by simpa using hs.slotsFetchable
  haltRecord := by simpa using hs.haltRecord

theorem Inv.of_exec (hs : Inv s) (hr : s.run = .running) (hp : s.pc.toNat ≤ 0xFFE) (h : exec i s = .next t) : Inv t := by
  rcases exec_run_cases h with hrun | ⟨reason, hne, -, rfl⟩
  · have hpar := exec_params h
    exact {
      memWf := hpar ▸ exec_memWf hs.memWf h
      fontIntact := fun hf a ha => by
        rw [hpar] at hf ⊢
        exact (exec_keeps_font hf (by omega) h).trans (hs.fontIntact hf a ha)
      pcBound := exec_pc_le hp hs.slotsFetchable h
      slotsFetchable := exec_slots_le hp hs.slotsFetchable h
      haltRecord := by rw [hrun, hr]; rintro _ _ _ ⟨⟩ }
  · exact hs.raiseHalt (iff_of_false hne (by omega)) fun h => absurd h hne

end

theorem pc_gt_of_fetch_none {s : State} (h : s.fetch = none) : s.pc.toNat > 0xFFE := by
  by_contra hn; rw [fetch_eq_some (by omega)] at h; cases h

/-- Settles O17, by the four ways a step can go. -/
theorem stepKeepsTheInvariant : Obligations.StepKeepsTheInvariant := by
  intro s t hs h
  rcases step_cases h with ⟨-, rfl⟩ | ⟨-, hf, rfl⟩ | ⟨op, -, hf, -, rfl⟩ | ⟨op, i, u, hr, hf, -, he, rfl⟩
  · exact hs
  · exact hs.raiseHalt (iff_of_true rfl (pc_gt_of_fetch_none hf)) fun _ => rfl
  · have hp := pc_le_of_fetch hf
    exact hs.raiseHalt (iff_of_false (by simp) (by omega)) (by simp)
  · exact (hs.of_exec hr (pc_le_of_fetch hf) he).finish

/-- Settles O18. -/
theorem resetMeetsTheInvariant : Obligations.ResetMeetsTheInvariant := fun p => {
  memWf := Memory.wf_nil p
  fontIntact := fun _ a _ => readByte_resetWith p a
  pcBound := by simp [State.resetWith]
  slotsFetchable := fun j hj => absurd hj (Nat.not_lt_zero _)
  haltRecord := by rintro _ _ _ ⟨⟩ }

/-- Settles O22: each row of R36 is read off the record, memory through its reset contents. -/
theorem resetGivesTheTable : Obligations.ResetGivesTheTable := by
  intro p
  refine ⟨fun a h => ?font, fun a h => ?zero, fun r => ?reg, rfl, rfl, fun j => ?slot, rfl, rfl, rfl, fun x y => ?pixel,
    rfl, fun k => ?key, rfl, rfl⟩
  case font => rw [readByte_resetWith, resetByte, dif_pos h]
  case zero => rw [readByte_resetWith, resetByte, dif_neg (by omega)]
  case reg => simp [State.reg, State.resetWith]
  case slot => simp [State.slot, State.resetWith]
  case pixel => exact pixel_blank x y
  case key => simp [State.resetWith]

/-! ### Keys -/

/-- No step changes a key: no instruction writes them, and neither does an error or the tick (R31). -/
theorem step_key {s t : State} (h : step s = .next t) : t.key = s.key := by
  rcases step_cases h with ⟨-, rfl⟩ | ⟨-, -, rfl⟩ | ⟨op, -, -, -, rfl⟩ | ⟨op, i, u, -, -, -, he, rfl⟩
  · rfl
  · rfl
  · rfl
  · rw [finish_key]
    exact exec_frame he .keys (by cases i <;> simp [partsWritten])

/-- Settles O26. -/
theorem onlyTheHostWritesKeys : Obligations.OnlyTheHostWritesKeys := by
  intro s k b
  refine ⟨fun j => ?_, setKey_frame s k b, fun t h => step_key h⟩
  rw [setKey_key, Vector.getElem_set]
  simp only [Fin.ext_iff, eq_comm]

/-! ### What a program cannot see -/

/-- Every instruction answers a next state: an error is one too (R200). -/
theorem exec_answers (i : Instr) (s : State) : ∃ t, exec i s = .next t := by
  cases i with
  | ret => simp only [exec, execRet]; split <;> exact ⟨_, rfl⟩
  | call => simp only [exec, execCall]; split <;> exact ⟨_, rfl⟩
  | drw => simp only [exec, execDrw]; split_ifs <;> exact ⟨_, rfl⟩
  | skp => simp only [exec, execSkp]; split <;> exact ⟨_, rfl⟩
  | sknp => simp only [exec, execSknp]; split <;> exact ⟨_, rfl⟩
  | ldVxK => simp only [exec, execLdVxK]; split <;> exact ⟨_, rfl⟩
  | ldBVx => simp only [exec, execLdBVx]; split_ifs <;> exact ⟨_, rfl⟩
  | ldMiVx => simp only [exec, execLdMiVx]; split_ifs <;> exact ⟨_, rfl⟩
  | ldVxMi => simp only [exec, execLdVxMi]; split_ifs <;> exact ⟨_, rfl⟩
  | _ => exact ⟨_, rfl⟩

/-- A relation between two states that no part of a step tells apart. -/
structure Unobservable (R : State → State → Prop) : Prop where
  run {s s' : State} : R s s' → s'.run = s.run
  fetch {s s' : State} : R s s' → s'.fetch = s.fetch
  raiseHalt {s s' : State} (reason : HaltReason) (op : Word) : R s s' → R (s.raiseHalt reason op) (s'.raiseHalt reason op)
  finish {s s' : State} : R s s' → R s.finish s'.finish
  exec {s s' t : State} {i : Instr} : R s s' → exec i s = .next t → ∃ t', exec i s' = .next t' ∧ R t t'

/-- Related states step to related states, by the ways a step can go. -/
theorem Unobservable.step_related {R : State → State → Prop} (hR : Unobservable R) {s s' : State} (h : R s s') :
    ∃ t t', step s = .next t ∧ step s' = .next t' ∧ R t t' := by
  have hrun := hR.run h
  have hfetch := hR.fetch h
  by_cases hr : s.run = .running
  · cases hf : s.fetch with
    | none =>
      exact ⟨_, _, step_of_no_fetch hr hf, step_of_no_fetch (hrun.trans hr) (hfetch.trans hf), hR.raiseHalt _ _ h⟩
    | some op =>
      cases hd : decodeWord op with
      | none =>
        exact ⟨_, _, step_of_unknown hr hf hd, step_of_unknown (hrun.trans hr) (hfetch.trans hf) hd,
          hR.raiseHalt _ _ h⟩
      | some i =>
        obtain ⟨t, he⟩ := exec_answers i s
        obtain ⟨t', he', ht⟩ := hR.exec h he
        exact ⟨_, _, step_of_exec hr hf hd he, step_of_exec (hrun.trans hr) (hfetch.trans hf) hd he', hR.finish ht⟩
  · exact ⟨_, _, step_of_halted hr, step_of_halted (hrun ▸ hr), h⟩

/-! ### A state under other flags and another stack -/

/-- The state with what no instruction but CALL and RET reads, the stack and the two flags, replaced. -/
def State.disguised (s : State) (σ : Vector Word 16) (r e : Bool) : State :=
  { s with stack := σ, redraw := r, soundEdge := e }

section
variable {i : Instr} {s t : State} (σ : Vector Word 16) (r e : Bool)

theorem storeRegs_disguised (rs : List Reg) :
    (s.disguised σ r e).storeRegs rs = (s.storeRegs rs).disguised σ r e :=
  List.foldl_hom (fun u : State => u.disguised σ r e) fun _ _ => rfl

theorem loadRegs_disguised (rs : List Reg) :
    (s.disguised σ r e).loadRegs rs = (s.loadRegs rs).disguised σ r e :=
  List.foldl_hom (fun u : State => u.disguised σ r e) fun _ _ => rfl

/-- An instruction that is no CALL and no RET meets the same checks and does the same in disguise; the redraw flag comes
out as it went in, or set by CLS or DRW. -/
theorem exec_disguised (hc : ∀ nnn, i ≠ .call nnn) (hret : i ≠ .ret) (h : exec i s = .next t) :
    ∃ r', exec i (s.disguised σ r e) = .next (t.disguised σ r' e) ∧ (r = s.redraw → r' = t.redraw) := by
  cases i with
  | ret => exact absurd rfl hret
  | call nnn => exact absurd rfl (hc nnn)
  | cls => cases h; exact ⟨true, rfl, fun _ => rfl⟩
  | drw x y n =>
    rcases exec_drw_cases h with ⟨hr, rfl⟩ | ⟨hr, hp, ho, rfl⟩ | ⟨hr, ho, rfl⟩
    · exact ⟨r, exec_drw_of_unreadable (s := s.disguised σ r e) x y hr, id⟩
    · exact ⟨r, exec_drw_of_offScreen (s := s.disguised σ r e) hr hp ho, id⟩
    · exact ⟨true, exec_drw_of_drawn (s := s.disguised σ r e) hr ho, fun _ => rfl⟩
  | skp x =>
    rcases exec_skp_cases h with ⟨hk, rfl⟩ | ⟨k, hk, rfl⟩
    · exact ⟨r, exec_skp_of_no_key (s := s.disguised σ r e) hk, id⟩
    · exact ⟨r, exec_skp_of_key (s := s.disguised σ r e) hk, id⟩
  | sknp x =>
    rcases exec_sknp_cases h with ⟨hk, rfl⟩ | ⟨k, hk, rfl⟩
    · exact ⟨r, exec_sknp_of_no_key (s := s.disguised σ r e) hk, id⟩
    · exact ⟨r, exec_sknp_of_key (s := s.disguised σ r e) hk, id⟩
  | ldVxK x =>
    rcases exec_ldVxK_cases h with ⟨hk, rfl⟩ | ⟨k, hk, rfl⟩
    · exact ⟨r, exec_ldVxK_of_no_key (s := t.disguised σ r e) x hk, id⟩
    · exact ⟨r, exec_ldVxK_of_key (s := s.disguised σ r e) x hk, id⟩
  | ldBVx x =>
    rcases exec_ldBVx_cases h with ⟨hr, rfl⟩ | ⟨hr, hf, rfl⟩ | ⟨hr, hf, rfl⟩
    · exact ⟨r, exec_ldBVx_of_outOfRange (s := s.disguised σ r e) x hr, id⟩
    · exact ⟨r, exec_ldBVx_of_font (s := s.disguised σ r e) x hr hf, id⟩
    · exact ⟨r, exec_ldBVx_of_stored (s := s.disguised σ r e) x hr hf, id⟩
  | ldMiVx x =>
    rcases exec_ldMiVx_cases h with ⟨hr, rfl⟩ | ⟨hr, hf, rfl⟩ | ⟨hr, hf, rfl⟩
    · exact ⟨r, exec_ldMiVx_of_outOfRange (s := s.disguised σ r e) hr, id⟩
    · exact ⟨r, exec_ldMiVx_of_font (s := s.disguised σ r e) hr hf, id⟩
    · refine ⟨r, ?_, fun hr => hr.trans (storeRegs_frame s _ .redraw (by simp)).symm⟩
      rw [exec_ldMiVx_of_stored (s := s.disguised σ r e) hr hf, storeRegs_disguised]; rfl
  | ldVxMi x =>
    rcases exec_ldVxMi_cases h with ⟨hr, rfl⟩ | ⟨hr, rfl⟩
    · exact ⟨r, exec_ldVxMi_of_outOfRange (s := s.disguised σ r e) hr, id⟩
    · refine ⟨r, ?_, fun hr => hr.trans (loadRegs_frame s _ .redraw (by simp)).symm⟩
      rw [exec_ldVxMi_of_loaded (s := s.disguised σ r e) hr, loadRegs_disguised]; rfl
  | _ => cases h; exact ⟨r, rfl, id⟩

theorem finish_disguised : ∃ e', (t.disguised σ r e).finish = t.finish.disguised σ r e' ∧
    (e = t.soundEdge → e' = t.finish.soundEdge) := by
  by_cases h : t.run = .running
  · have h' : (t.disguised σ r e).run = .running := h
    rw [finish_of_running h, finish_of_running h']
    exact ⟨e || decide (t.st = 1), rfl, by rintro rfl; rfl⟩
  · have h' : (t.disguised σ r e).run ≠ .running := h
    rw [finish_of_halted h, finish_of_halted h']
    exact ⟨e, rfl, id⟩

end

section
variable {i : Instr} {s t : State}

/-- Only CALL and RET write the stack: the slots one by one, hence the vector. -/
theorem exec_stack (hc : ∀ nnn, i ≠ .call nnn) (hret : i ≠ .ret) (h : exec i s = .next t) :
    t.sp = s.sp ∧ t.stack = s.stack := by
  obtain ⟨hsp, hslot⟩ := exec_frame h .stack (by cases i <;> simp_all [partsWritten])
  exact ⟨hsp, Vector.ext fun j hj => hslot ⟨j, hj⟩⟩

/-! ### The flags -/

/-- The states differ in the flags alone. -/
def SameButFlags (s s' : State) : Prop := ∃ r e, s' = s.disguised s.stack r e

theorem SameButFlags.frame {s s' : State} (h : SameButFlags s s') : FrameExcept [.redraw, .edge] s s' := by
  obtain ⟨r, e, rfl⟩ := h
  exact fun p hp => by cases p <;> simp_all [Same, State.disguised, State.reg, State.pixel, State.readByte, State.slot]

theorem SameButFlags.of_exec {s' : State} (hs : SameButFlags s s') (h : exec i s = .next t) :
    ∃ t', exec i s' = .next t' ∧ SameButFlags t t' := by
  obtain ⟨r, e, rfl⟩ := hs
  cases i with
  | ret =>
    rcases exec_ret_cases h with ⟨h0, rfl⟩ | ⟨j, hj, rfl⟩
    · exact ⟨_, exec_ret_of_empty (s := s.disguised s.stack r e) h0, r, e, rfl⟩
    · exact ⟨_, exec_ret_of_slot (s := s.disguised s.stack r e) hj, r, e, rfl⟩
  | call nnn =>
    rcases exec_call_cases h with ⟨hf, rfl⟩ | ⟨hr, rfl⟩
    · exact ⟨_, exec_call_of_full (s := s.disguised s.stack r e) nnn hf, r, e, rfl⟩
    · exact ⟨_, exec_call_of_room (s := s.disguised s.stack r e) nnn hr, r, e, rfl⟩
  | _ =>
    obtain ⟨r', h', -⟩ := exec_disguised s.stack r e (by simp) (by simp) h
    obtain ⟨-, hst⟩ := exec_stack (by simp) (by simp) h
    exact ⟨_, h', r', e, by rw [hst]⟩

theorem unobservable_flags : Unobservable SameButFlags where
  run := by rintro s _ ⟨r, e, rfl⟩; rfl
  fetch := by rintro s _ ⟨r, e, rfl⟩; rfl
  raiseHalt := by rintro s _ reason op ⟨r, e, rfl⟩; exact ⟨r, e, rfl⟩
  finish := by
    rintro s _ ⟨r, e, rfl⟩
    obtain ⟨e', h, -⟩ := finish_disguised (t := s) s.stack r e
    exact ⟨r, e', by rw [h, finish_stack]⟩
  exec := SameButFlags.of_exec

/-! ### The stale slots -/

/-- The states differ only in slots at or above sp (R25). -/
def SameButStale (s s' : State) : Prop :=
  ∃ σ, s' = s.disguised σ s.redraw s.soundEdge ∧ ∀ j : Fin 16, j.val < s.sp.val → σ[j.val] = s.slot j

theorem SameButStale.frame {s s' : State} (h : SameButStale s s') : FrameExcept [.stack] s s' := by
  obtain ⟨σ, rfl, -⟩ := h
  exact withCalls_frame s σ s.sp

/-- CALL writes the slot at sp, the same in both; RET reads one below sp, where the states agree (R101, R102). -/
theorem SameButStale.of_exec {s' : State} (hs : SameButStale s s') (h : exec i s = .next t) :
    ∃ t', exec i s' = .next t' ∧ SameButStale t t' := by
  obtain ⟨σ, rfl, hσ⟩ := hs
  cases i with
  | ret =>
    rcases exec_ret_cases h with ⟨h0, rfl⟩ | ⟨j, hj, rfl⟩
    · exact ⟨_, exec_ret_of_empty (s := s.disguised σ s.redraw s.soundEdge) h0, σ, rfl, hσ⟩
    · have hpop : (s.disguised σ s.redraw s.soundEdge).slot j = s.slot j := hσ j (by omega)
      refine ⟨_, exec_ret_of_slot (s := s.disguised σ s.redraw s.soundEdge) hj, σ, by rw [hpop]; rfl, ?_⟩
      intro k (hk : k.val < j.val)
      exact hσ k (by omega)
  | call nnn =>
    rcases exec_call_cases h with ⟨hf, rfl⟩ | ⟨hr, rfl⟩
    · exact ⟨_, exec_call_of_full (s := s.disguised σ s.redraw s.soundEdge) nnn hf, σ, rfl, hσ⟩
    · refine ⟨_, exec_call_of_room (s := s.disguised σ s.redraw s.soundEdge) nnn hr, σ.set s.sp.val s.pc, rfl, ?_⟩
      intro k (hk : k.val < s.sp.val + 1)
      show (σ.set s.sp.val s.pc)[k.val] = (s.stack.set s.sp.val s.pc)[k.val]
      rw [Vector.getElem_set, Vector.getElem_set]
      split
      · rfl
      · exact hσ k (by omega)
  | _ =>
    obtain ⟨r', h', hr⟩ := exec_disguised σ s.redraw s.soundEdge (by simp) (by simp) h
    obtain ⟨hsp, hst⟩ := exec_stack (by simp) (by simp) h
    have he : t.soundEdge = s.soundEdge := exec_frame h .edge (by simp [partsWritten])
    exact ⟨_, h', σ, by rw [hr rfl, he], by simpa [State.slot, hsp, hst] using hσ⟩

theorem unobservable_staleSlots : Unobservable SameButStale where
  run := by rintro s _ ⟨σ, rfl, -⟩; rfl
  fetch := by rintro s _ ⟨σ, rfl, -⟩; rfl
  raiseHalt := by rintro s _ reason op ⟨σ, rfl, hσ⟩; exact ⟨σ, rfl, hσ⟩
  finish := by
    rintro s _ ⟨σ, rfl, hσ⟩
    obtain ⟨e', h, he⟩ := finish_disguised (t := s) σ s.redraw s.soundEdge
    exact ⟨σ, by rw [h, he rfl, finish_redraw], by simpa using hσ⟩
  exec := SameButStale.of_exec

end

/-- Settles O60. -/
theorem flagsAreUnobservable : Obligations.FlagsAreUnobservable := by
  intro s r e
  obtain ⟨t, t', ht, ht', hR⟩ := unobservable_flags.step_related (s := s) ⟨r, e, rfl⟩
  exact ⟨t, t', ht, ht', hR.frame⟩

/-- Settles O59. -/
theorem staleSlotsAreUnobservable : Obligations.StaleSlotsAreUnobservable := by
  intro s other hs
  obtain ⟨t, t', ht, ht', hR⟩ := unobservable_staleSlots.step_related (s := s) ⟨other, rfl, hs⟩
  refine ⟨t, t', ht, ht', hR.frame, ?_⟩
  obtain ⟨σ, rfl, hσ⟩ := hR
  exact ⟨rfl, hσ⟩

end Sys2Proof.Machine

/-!
PROOFS of the family spec/20_memory.md. The premises of a store are read once as its two checks passing; what the stored
bytes read as follows, for any instruction statement about FX55 to use.
-/

namespace Sys2Proof.Machine

section
variable {s t : State}

theorem dataOutOfRange_eq_false {last : Nat} (h : s.index.toNat + last ≤ 0xFFF) : s.dataOutOfRange last = false :=
  Bool.eq_false_iff.2 fun ho => by have := (dataOutOfRange_iff s last).1 ho; omega

theorem fontForbids_eq_false (h : s.params.fontWrite = .write ∨ 0x04F < s.index.toNat) : s.fontForbids = false :=
  Bool.eq_false_iff.2 fun hf => by
    obtain ⟨hp, hi⟩ := (fontForbids_iff s).1 hf
    rcases h with hw | hlt
    · rw [hp] at hw; cases hw
    · omega

/-- After an FX55 that passed its checks, the k-th data byte is V[k] (R144). -/
theorem readByte_of_exec_ldMiVx {x : Reg} (hr : s.dataOutOfRange x.val = false) (hf : s.fontForbids = false)
    (h : exec (.ldMiVx x) s = .next t) {k : Reg} (hk : k.val ≤ x.val) : t.readByte (s.dataAddr k.val) = s.reg k := by
  rw [exec_ldMiVx_of_stored hr hf] at h
  cases h
  exact readByte_storeRegs s x k hk

end

/-- Settles O21: a step that executes nothing leaves memory, and an executed instruction keeps the font region. -/
theorem fontRegionIsNeverWritten : Obligations.FontRegionIsNeverWritten := by
  intro s t a hp h ha
  rcases step_cases h with ⟨-, rfl⟩ | ⟨-, -, rfl⟩ | ⟨op, -, -, -, rfl⟩ | ⟨op, i, u, -, -, -, he, rfl⟩
  · rfl
  · rfl
  · rfl
  · rw [finish_readByte]
    exact exec_keeps_font hp ha he

/-- Settles O51: the two bytes the fetch reads are those of V0 and V1, and the range check bounds I by 0xFFE. -/
theorem storedWordIsFetched : Obligations.StoredWordIsFetched := by
  intro x s t hx hi hw h
  have stored {k : Reg} (hk : k.val ≤ x.val) : t.readByte (s.dataAddr k.val) = s.reg k :=
    readByte_of_exec_ldMiVx (dataOutOfRange_eq_false hi) (fontForbids_eq_false hw) h hk
  have hpc : (t.setPc s.index).pc.toNat ≤ 0xFFE := by rw [setPc_pc]; omega
  have hhi : (t.setPc s.index).readByte s.index.toNat = s.reg 0 := stored (k := 0) (Nat.zero_le _)
  have hlo : (t.setPc s.index).readByte (s.index.toNat + 1) = s.reg 1 := stored (k := 1) hx
  refine ⟨_, fetch_eq_some hpc, ?_⟩
  rw [setPc_pc, hhi, hlo, wordOfBytes_toNat]

end Sys2Proof.Machine

/-!
PROOFS of the family spec/30_encoding.md. A word is packed again from the fields that were cut from it, the decoder's answer is
`none` on fields that stand in no list of its family, and two rows of the opcode table that hold of one word are one row; the
statements are read off these.
-/

namespace Sys2Proof

/-! ### Fields and packed words as numbers (R71, R73) -/

theorem xField_val (w : Word) : (xField w).val = w.toNat / 256 % 16 := by
  simp [xField, Nat.shiftRight_eq_div_pow]

theorem yField_val (w : Word) : (yField w).val = w.toNat / 16 % 16 := by
  simp [yField, Nat.shiftRight_eq_div_pow]

theorem nnnField_toNat (w : Word) : (nnnField w).toNat = w.toNat % 4096 := by
  simp [nnnField]

theorem toNat_append_eq_add {m n : Nat} (a : BitVec m) (b : BitVec n) : (a ++ b).toNat = a.toNat * 2 ^ n + b.toNat := by
  rw [BitVec.toNat_append, Nat.shiftLeft_eq, Nat.mul_comm, ← Nat.two_pow_add_eq_or_of_lt b.isLt]

@[simp] theorem regBits_toNat (r : Reg) : (regBits r).toNat = r.val := rfl

theorem packNnn_toNat (f : BitVec 4) (nnn : BitVec 12) : (packNnn f nnn).toNat = f.toNat * 0x1000 + nnn.toNat :=
  toNat_append_eq_add f nnn

theorem packXnn_toNat (f : BitVec 4) (x : Reg) (nn : Byte) :
    (packXnn f x nn).toNat = f.toNat * 0x1000 + x.val * 0x100 + nn.toNat := by
  rw [packXnn, toNat_append_eq_add, toNat_append_eq_add, regBits_toNat]; omega

theorem packXyn_toNat (f : BitVec 4) (x y : Reg) (n : BitVec 4) :
    (packXyn f x y n).toNat = f.toNat * 0x1000 + x.val * 0x100 + y.val * 0x10 + n.toNat := by
  rw [packXyn, toNat_append_eq_add, toNat_append_eq_add, toNat_append_eq_add, regBits_toNat, regBits_toNat]; omega

/-! ### A word from some of its fields -/

section
variable {w : Word} {f : BitVec 4} (hf : famField w = f)
include hf

theorem packNnn_eq_of_fam : packNnn f (nnnField w) = w := by rw [← hf, packNnn_fields]

theorem packXnn_eq_of_fam : packXnn f (xField w) (nnField w) = w := by rw [← hf, packXnn_fields]

theorem packXnn_eq_of_fam_nn {nn : Byte} (hn : nnField w = nn) : packXnn f (xField w) nn = w := by
  rw [← hn, packXnn_eq_of_fam hf]

theorem packXyn_eq_of_fam : packXyn f (xField w) (yField w) (nField w) = w := by rw [← hf, packXyn_fields]

theorem packXyn_eq_of_fam_n {n : BitVec 4} (hn : nField w = n) : packXyn f (xField w) (yField w) n = w := by
  rw [← hn, packXyn_eq_of_fam hf]

end

/-! ### From the instruction to its word and back -/

/-- The fields of the packed word steer the decoder to the instruction's own arm. -/
theorem decodeWord_encodeWord (i : Instr) : decodeWord (encodeWord i) = some i := by
  cases i with
  | cls => rfl
  | ret => rfl
  | or | and | xor | addVxVy | sub | shr | subn | shl | ldVxVy => simp [encodeWord, decodeWord, decodeFam8]
  | skp | sknp => simp [encodeWord, decodeWord, decodeFamE]
  | ldVxDt | ldVxK | ldDtVx | ldStVx | addIVx | ldFVx | ldBVx | ldMiVx | ldVxMi =>
    simp [encodeWord, decodeWord, decodeFamF]
  | _ => simp [encodeWord, decodeWord]

/-- A word is read from its own number (R70). -/
theorem tableWord_toNat (w : Word) : tableWord 16 w.toNat = some w := by
  have hw : w.toNat % 2 ^ 16 = w.toNat := Nat.mod_eq_of_lt w.isLt
  rw [tableWord, hw, if_pos w.isLt, BitVec.ofNat_toNat, BitVec.setWidth_eq]

/-- Settles O2. -/
theorem decodeOfEncodeIsTheInstruction : Obligations.DecodeOfEncodeIsTheInstruction := by
  intro i
  have hbytes : decodeBytes (encodeBytes i) = .instr i := by
    rw [encodeBytes, decodeBytes_bytesOfWord, decodeWord_encodeWord]
  refine ⟨decodeWord_encodeWord i, hbytes, ?_⟩
  rw [encodeBytes] at hbytes
  simp only [decodeTableWord, tableWord_toNat, hbytes]

/-! ### From the word to its instruction and back -/

section
variable {w : Word} {i : Instr}

/-- An arm of the decoder gives the word back if its own instruction does and the arms after it do. -/
theorem encodeWord_of_arm {p : Prop} [Decidable p] {j : Instr} {o : Option Instr} (hj : p → encodeWord j = w)
    (ho : o = some i → encodeWord i = w) (h : (if p then some j else o) = some i) : encodeWord i = w := by
  by_cases hp : p
  · rw [if_pos hp] at h; cases h; exact hj hp
  · rw [if_neg hp] at h; exact ho h

theorem encodeWord_of_decodeFam0 : decodeFam0 w = some i → encodeWord i = w :=
  encodeWord_of_arm Eq.symm (encodeWord_of_arm Eq.symm nofun)

theorem encodeWord_of_decodeFam8 (hf : famField w = 0x8) : decodeFam8 w = some i → encodeWord i = w := by
  unfold decodeFam8
  iterate 9 refine encodeWord_of_arm (fun hn => packXyn_eq_of_fam_n hf hn) ?_
  nofun

theorem encodeWord_of_decodeFamE (hf : famField w = 0xE) : decodeFamE w = some i → encodeWord i = w := by
  unfold decodeFamE
  iterate 2 refine encodeWord_of_arm (fun hnn => packXnn_eq_of_fam_nn hf hnn) ?_
  nofun

theorem encodeWord_of_decodeFamF (hf : famField w = 0xF) : decodeFamF w = some i → encodeWord i = w := by
  unfold decodeFamF
  iterate 9 refine encodeWord_of_arm (fun hnn => packXnn_eq_of_fam_nn hf hnn) ?_
  nofun

end

/-- Settles O3, family by family: the decoder's arm has checked the literal digits that the encoder writes. -/
theorem encodeOfDecodeIsTheWord : Obligations.EncodeOfDecodeIsTheWord := by
  intro w i h
  rcases nibble_cases (famField w) with
    hf | hf | hf | hf | hf | hf | hf | hf | hf | hf | hf | hf | hf | hf | hf | hf <;>
    simp only [decodeWord, hf, BitVec.reduceEq, reduceIte] at h
  · exact encodeWord_of_decodeFam0 h
  · cases h; exact packNnn_eq_of_fam hf
  · cases h; exact packNnn_eq_of_fam hf
  · cases h; exact packXnn_eq_of_fam hf
  · cases h; exact packXnn_eq_of_fam hf
  · revert h; exact encodeWord_of_arm (fun hn => packXyn_eq_of_fam_n hf hn) nofun
  · cases h; exact packXnn_eq_of_fam hf
  · cases h; exact packXnn_eq_of_fam hf
  · exact encodeWord_of_decodeFam8 hf h
  · revert h; exact encodeWord_of_arm (fun hn => packXyn_eq_of_fam_n hf hn) nofun
  · cases h; exact packNnn_eq_of_fam hf
  · cases h; exact packNnn_eq_of_fam hf
  · cases h; exact packXnn_eq_of_fam hf
  · cases h; exact packXyn_eq_of_fam hf
  · exact encodeWord_of_decodeFamE hf h
  · exact encodeWord_of_decodeFamF hf h

/-! ### The unknown space (R75) -/

theorem ite_some_eq_none_iff {α : Type} {p : Prop} [Decidable p] {a : α} {o : Option α} :
    (if p then some a else o) = none ↔ ¬p ∧ o = none := by
  split_ifs with hp <;> simp [hp]

theorem decodeFam0_eq_none_iff (w : Word) : decodeFam0 w = none ↔ w ∉ [0x00E0, 0x00EE] := by
  simp [decodeFam0, ite_some_eq_none_iff]

theorem decodeFam8_eq_none_iff (w : Word) :
    decodeFam8 w = none ↔ nField w ∉ [0x0, 0x1, 0x2, 0x3, 0x4, 0x5, 0x6, 0x7, 0xE] := by
  simp [decodeFam8, ite_some_eq_none_iff]

theorem decodeFamE_eq_none_iff (w : Word) : decodeFamE w = none ↔ nnField w ∉ [0x9E, 0xA1] := by
  simp [decodeFamE, ite_some_eq_none_iff]

theorem decodeFamF_eq_none_iff (w : Word) :
    decodeFamF w = none ↔ nnField w ∉ [0x07, 0x0A, 0x15, 0x18, 0x1E, 0x29, 0x33, 0x55, 0x65] := by
  simp [decodeFamF, ite_some_eq_none_iff]

/-- The unknown space by the fields: a word is unknown if what its family checks stands in no list of the family's. -/
theorem decodeWord_eq_none_iff (w : Word) : decodeWord w = none ↔
    (famField w = 0x0 ∧ w ∉ [0x00E0, 0x00EE]) ∨
    (famField w = 0x5 ∧ nField w ≠ 0) ∨
    (famField w = 0x8 ∧ nField w ∉ [0x0, 0x1, 0x2, 0x3, 0x4, 0x5, 0x6, 0x7, 0xE]) ∨
    (famField w = 0x9 ∧ nField w ≠ 0) ∨
    (famField w = 0xE ∧ nnField w ∉ [0x9E, 0xA1]) ∨
    (famField w = 0xF ∧ nnField w ∉ [0x07, 0x0A, 0x15, 0x18, 0x1E, 0x29, 0x33, 0x55, 0x65]) := by
  rw [← decodeFam0_eq_none_iff, ← decodeFam8_eq_none_iff, ← decodeFamE_eq_none_iff, ← decodeFamF_eq_none_iff]
  rcases nibble_cases (famField w) with
    hf | hf | hf | hf | hf | hf | hf | hf | hf | hf | hf | hf | hf | hf | hf | hf <;> simp [decodeWord, hf]

/-- Settles O5: the fields of the unknown space, read as numbers. -/
theorem unknownSpaceIsTheTable : Obligations.UnknownSpaceIsTheTable := by
  intro w
  have hn : (w.toNat % 16 ∈ [0x8, 0x9, 0xA, 0xB, 0xC, 0xD, 0xF]) ↔
      (w.toNat % 16 ∉ [0x0, 0x1, 0x2, 0x3, 0x4, 0x5, 0x6, 0x7, 0xE]) := by
    simp only [List.mem_cons, List.not_mem_nil, or_false]; omega
  rw [decodeWord_eq_none_iff, hn]
  simp [← BitVec.toNat_inj, famField_toNat, nField_toNat, nnField_toNat]

/-! ### The rows of the opcode table (R73) -/

theorem famField_and (w m : Word) : famField (w &&& m) = famField w &&& famField m := BitVec.extractLsb'_and
theorem nField_and (w m : Word) : nField (w &&& m) = nField w &&& nField m := BitVec.extractLsb'_and
theorem nnField_and (w m : Word) : nnField (w &&& m) = nnField w &&& nnField m := BitVec.extractLsb'_and

/-- Every row's mask covers the family, and what the row's family checks beyond it (D3). -/
theorem masks_of_families : ∀ r ∈ opcodeTable,
    famField r.mask = BitVec.allOnes 4 ∧
    (famField r.pattern = 0x0 → r.mask = BitVec.allOnes 16) ∧
    (famField r.pattern ∈ [0x5, 0x8, 0x9] → nField r.mask = BitVec.allOnes 4) ∧
    (famField r.pattern ∈ [0xE, 0xF] → nnField r.mask = BitVec.allOnes 8) := by
  decide

section
variable {r r' : OpcodeRow} {w : Word}

theorem OpcodeRow.holds_iff : r.holds w = true ↔ w &&& r.mask = r.pattern := beq_iff_eq

theorem famField_of_holds (hr : r ∈ opcodeTable) (h : r.holds w = true) : famField w = famField r.pattern := by
  obtain ⟨hm, -⟩ := masks_of_families r hr
  rw [← OpcodeRow.holds_iff.1 h, famField_and, hm, BitVec.and_allOnes]

theorem nField_of_holds (hm : nField r.mask = BitVec.allOnes 4) (h : r.holds w = true) : nField w = nField r.pattern := by
  rw [← OpcodeRow.holds_iff.1 h, nField_and, hm, BitVec.and_allOnes]

theorem nnField_of_holds (hm : nnField r.mask = BitVec.allOnes 8) (h : r.holds w = true) :
    nnField w = nnField r.pattern := by
  rw [← OpcodeRow.holds_iff.1 h, nnField_and, hm, BitVec.and_allOnes]

/-- The word agrees with the row's pattern in all that its family checks, so the pattern would be unknown too. -/
theorem pattern_unknown_of_holds (hr : r ∈ opcodeTable) (h : r.holds w = true) (hd : decodeWord w = none) :
    decodeWord r.pattern = none := by
  obtain ⟨-, hword, hlow, hbyte⟩ := masks_of_families r hr
  rw [← famField_of_holds hr h] at hword hlow hbyte
  rw [decodeWord_eq_none_iff] at hd ⊢
  rw [← famField_of_holds hr h]
  rcases hd with ⟨hf, hw⟩ | ⟨hf, hn⟩ | ⟨hf, hn⟩ | ⟨hf, hn⟩ | ⟨hf, hnn⟩ | ⟨hf, hnn⟩
  · have hwp : w = r.pattern := by rw [← OpcodeRow.holds_iff.1 h, hword hf, BitVec.and_allOnes]
    exact .inl ⟨hf, hwp ▸ hw⟩
  · rw [nField_of_holds (hlow (by simp [hf])) h] at hn
    exact .inr (.inl ⟨hf, hn⟩)
  · rw [nField_of_holds (hlow (by simp [hf])) h] at hn
    exact .inr (.inr (.inl ⟨hf, hn⟩))
  · rw [nField_of_holds (hlow (by simp [hf])) h] at hn
    exact .inr (.inr (.inr (.inl ⟨hf, hn⟩)))
  · rw [nnField_of_holds (hbyte (by simp [hf])) h] at hnn
    exact .inr (.inr (.inr (.inr (.inl ⟨hf, hnn⟩))))
  · rw [nnField_of_holds (hbyte (by simp [hf])) h] at hnn
    exact .inr (.inr (.inr (.inr (.inr ⟨hf, hnn⟩))))

theorem not_holds_of_unknown (hd : decodeWord w = none) (hr : r ∈ opcodeTable) : ¬ r.holds w = true := fun h =>
  have known : ∀ r ∈ opcodeTable, decodeWord r.pattern ≠ none := by decide
  known r hr (pattern_unknown_of_holds hr h hd)

/-- Rows that hold of one word have patterns that agree under both masks. -/
theorem patterns_agree_of_holds (h : r.holds w = true) (h' : r'.holds w = true) :
    r.pattern &&& r'.mask = r'.pattern &&& r.mask := by
  rw [← OpcodeRow.holds_iff.1 h, ← OpcodeRow.holds_iff.1 h', BitVec.and_assoc, BitVec.and_assoc, BitVec.and_comm r.mask]

/-- Of any two rows, some digit that both check tells them apart. -/
theorem opcodeTable_pairwise_disagree :
    opcodeTable.Pairwise fun r r' => r.pattern &&& r'.mask ≠ r'.pattern &&& r.mask := by
  decide

theorem filter_holds_eq_singleton (hr : r ∈ opcodeTable) (h : r.holds w = true) :
    opcodeTable.filter (·.holds w) = [r] := by
  have hmem : r ∈ opcodeTable.filter (·.holds w) := List.mem_filter.2 ⟨hr, h⟩
  have hholds : ∀ a ∈ opcodeTable.filter (·.holds w), a.holds w = true := fun a ha => (List.mem_filter.1 ha).2
  have hpair := opcodeTable_pairwise_disagree.filter (·.holds w)
  cases hrows : opcodeTable.filter (·.holds w) with
  | nil => rw [hrows] at hmem; cases hmem
  | cons a rest =>
    rw [hrows] at hmem hholds hpair
    cases rest with
    | nil => rw [List.mem_singleton.1 hmem]
    | cons b rest =>
      have hne := (List.pairwise_cons.1 hpair).1 b (by simp)
      exact absurd (patterns_agree_of_holds (hholds a (by simp)) (hholds b (by simp))) hne

end

end Sys2Proof

namespace Sys2Proof.Laws.EncodesItsRow

theorem of_instr : ∀ i : Instr, Statement i
  | .cls => cls | .ret => ret | .jp nnn => jp nnn | .call nnn => call nnn
  | .seVxNn x nn => seVxNn x nn | .sneVxNn x nn => sneVxNn x nn | .seVxVy x y => seVxVy x y
  | .ldVxNn x nn => ldVxNn x nn | .addVxNn x nn => addVxNn x nn | .ldVxVy x y => ldVxVy x y
  | .or x y => or x y | .and x y => and x y | .xor x y => xor x y | .addVxVy x y => addVxVy x y
  | .sub x y => sub x y | .shr x y => shr x y | .subn x y => subn x y | .shl x y => shl x y
  | .sneVxVy x y => sneVxVy x y | .ldINnn nnn => ldINnn nnn | .jpV0 nnn => jpV0 nnn | .rnd x nn => rnd x nn
  | .drw x y n => drw x y n | .skp x => skp x | .sknp x => sknp x | .ldVxDt x => ldVxDt x | .ldVxK x => ldVxK x
  | .ldDtVx x => ldDtVx x | .ldStVx x => ldStVx x | .addIVx x => addIVx x | .ldFVx x => ldFVx x
  | .ldBVx x => ldBVx x | .ldMiVx x => ldMiVx x | .ldVxMi x => ldVxMi x

end Sys2Proof.Laws.EncodesItsRow

namespace Sys2Proof

/-- Settles O4: the row of the instruction's own name holds of its word, and no second row can. -/
theorem exactlyOneRowHoldsOfAKnownWord : Obligations.ExactlyOneRowHoldsOfAKnownWord := by
  intro w
  refine ⟨fun i hd => ?_, fun hd => List.filter_eq_nil_iff.2 fun r => not_holds_of_unknown hd⟩
  obtain ⟨-, r, hr, hname, hholds⟩ := Laws.EncodesItsRow.of_instr i
  rw [encodeOfDecodeIsTheWord w i hd] at hholds
  rw [filter_holds_eq_singleton hr hholds, List.map_singleton, hname]

/-! ### The encodings and the fields as the spec writes them -/

/-- Settles O6: each pattern is a packed word read as a number. -/
theorem encodingsAreThePatterns : Obligations.EncodingsAreThePatterns := by
  intro x y n nn nnn
  simp only [encodeWord, packNnn_toNat, packXnn_toNat, packXyn_toNat, BitVec.reduceToNat, true_and]
  omega

/-- Settles O1: twelve closed words, each decoded by evaluation. -/
theorem writtenOutWordsDecode : Obligations.WrittenOutWordsDecode := by
  unfold Obligations.WrittenOutWordsDecode
  decide

/-- Settles O7: a mask of ones is a remainder, and a shift a quotient. -/
theorem fieldsAreCutByTheFormulas : Obligations.FieldsAreCutByTheFormulas := by
  intro w
  refine ⟨?fam, ?x, ?y, ?n, ?nn, ?nnn⟩
  case fam => rw [famField_toNat, Nat.shiftRight_eq_div_pow]
  case x => rw [xField_val, Nat.shiftRight_eq_div_pow]; exact (Nat.and_two_pow_sub_one_eq_mod _ 4).symm
  case y => rw [yField_val, Nat.shiftRight_eq_div_pow]; exact (Nat.and_two_pow_sub_one_eq_mod _ 4).symm
  case n => rw [nField_toNat]; exact (Nat.and_two_pow_sub_one_eq_mod _ 4).symm
  case nn => rw [nnField_toNat]; exact (Nat.and_two_pow_sub_one_eq_mod _ 8).symm
  case nnn => rw [nnnField_toNat]; exact (Nat.and_two_pow_sub_one_eq_mod _ 12).symm

end Sys2Proof

/-!
PROOFS of the family spec/40_step.md. A step goes one of four ways: the machine is halted, no word can be fetched, the word
decodes to nothing, or its instruction is executed; each statement names the way it speaks of.
-/

namespace Sys2Proof.Machine

/-- Settles O13: each way a step can go has its next state. -/
theorem stepAlwaysAnswersANextState : Obligations.StepAlwaysAnswersANextState := by
  intro s
  by_cases hr : s.run = .running
  · cases hf : s.fetch with
    | none => exact ⟨_, step_of_no_fetch hr hf⟩
    | some op =>
      cases hd : decodeWord op with
      | none => exact ⟨_, step_of_unknown hr hf hd⟩
      | some i =>
        obtain ⟨t, he⟩ := exec_answers i s
        exact ⟨_, step_of_exec hr hf hd he⟩
  · exact ⟨_, step_of_halted hr⟩

/-- Settles O12. -/
theorem haltedStepsAreNoOps : Obligations.HaltedStepsAreNoOps := by
  intro s reason op a h k
  have hr : s.run ≠ .running := by rw [h]; nofun
  exact run_of_halted hr k

/-- Two bytes decode to an instruction exactly if their big-endian word does (R57, R74). -/
theorem decodeBytes_pair_eq_instr_iff {hi lo : Byte} {i : Instr} :
    decodeBytes [hi, lo] = .instr i ↔ decodeWord (wordOfBytes hi lo) = some i := by
  cases h : decodeWord (wordOfBytes hi lo) <;> simp [decodeBytes, h]

/-- Settles O8: the decoded instruction answers some `t`, and the step is `t.finish`, which ticks or not by `t.run`. -/
theorem stepRunsTheDecodedInstruction : Obligations.StepRunsTheDecodedInstruction := by
  intro s i hr hpc hd
  obtain ⟨t, he⟩ := exec_answers i s
  have hstep : step s = .next t.finish :=
    step_of_exec hr (fetch_eq_some hpc) (decodeBytes_pair_eq_instr_iff.1 hd) he
  refine ⟨t, he, fun ht => ?_, fun ht => ?_⟩
  · rw [hstep, finish_of_running ht]
  · rw [hstep, finish_of_halted ht]

/-- Settles O9. -/
theorem fetchIsBigEndian : Obligations.FetchIsBigEndian := fun _ =>
  ⟨fun h => ⟨_, fetch_eq_some h, wordOfBytes_toNat _ _⟩, fetch_eq_none⟩

/-- Settles O10: the failed fetch is the only thing the step does, and raising it writes `run` alone. -/
theorem fetchBeyondMemoryHalts : Obligations.FetchBeyondMemoryHalts := fun s hr hpc =>
  ⟨_, step_of_no_fetch hr (fetch_eq_none hpc), raiseHalt_run s _ _, raiseHalt_frame s _ _⟩

end Sys2Proof.Machine

/-!
PROOFS of the family spec/41_control_flow.md. What a skip answers is said once for its condition as a proposition, and the
return after a call is put together from the call's statement and the return's.
-/

namespace Sys2Proof.Machine

/-! ### Calls and returns (R101, R102) -/

/-- The slots after CALL's write: the new entry, the others as they were. -/
theorem slot_withCalls_set (s : State) {k : Nat} (hk : k < 16) (w : Word) (n : Fin 17) (j : Fin 16) :
    (s.withCalls (s.stack.set k w) n).slot j = if j.val = k then w else s.slot j := by
  simp only [State.withCalls, State.slot, Vector.getElem_set, eq_comm]

/-- Settles O31: the stack either has room for the entry or is full. -/
theorem callPushesItsOwnAddress : Obligations.CallPushesItsOwnAddress := by
  intro nnn s
  refine ⟨fun hroom => ?room, fun hfull => ?full⟩
  case room =>
    refine ⟨_, exec_call_of_room nnn hroom, wordOfNnn_toNat nnn, rfl, fun j => ?_, by simp⟩
    rw [setPc_slot, slot_withCalls_set]
  case full => exact ⟨_, exec_call_of_full nnn hfull, raiseHalt_run s _ _, raiseHalt_frame s _ _⟩

/-- Settles O32: the stack either has a top entry or is empty. -/
theorem returnPopsAndAddsTwo : Obligations.ReturnPopsAndAddsTwo := by
  intro s
  refine ⟨fun j hj => ?entry, fun hempty => ?empty⟩
  case entry => exact ⟨_, exec_ret_of_slot hj, word_add_toNat (s.slot j) 2, rfl, fun _ => rfl, by simp⟩
  case empty => exact ⟨_, exec_ret_of_empty hempty, raiseHalt_run s _ _, raiseHalt_frame s _ _⟩

/-- Settles O33: the call left its own address in slot `s.sp` with one entry more (O31), and the return takes the slot under
`u.sp` (O32), which is that one. -/
theorem returnResumesAfterTheCall : Obligations.ReturnResumesAfterTheCall := by
  intro nnn s t u hroom hcall hsp hslot
  have hj : (Fin.ofNat 16 s.sp.val).val = s.sp.val := Nat.mod_eq_of_lt hroom
  obtain ⟨t', hcall', -, htsp, htslot, -⟩ := (callPushesItsOwnAddress nnn s).1 hroom
  obtain rfl : t = t' := Host.Outcome.next.inj (hcall.symm.trans hcall')
  rw [htslot, if_pos hj] at hslot
  have hentry : u.sp.val = (Fin.ofNat 16 s.sp.val).val + 1 := by rw [hsp, htsp, hj]
  obtain ⟨v, hret, hvpc, hvsp, hvslot, hframe⟩ := (returnPopsAndAddsTwo u).1 _ hentry
  rw [hslot, ← word_add_toNat s.pc 2] at hvpc
  exact ⟨v, hret, BitVec.eq_of_toNat_eq hvpc, Fin.ext (hvsp.trans hj), hvslot, hframe⟩

/-! ### Jumps (R100, R107) -/

/-- Settles O30. -/
theorem jumpSetsPc : Obligations.JumpSetsPc := fun nnn s =>
  ⟨s.setPc (wordOfNnn nnn), rfl, wordOfNnn_toNat nnn, setPc_frame s _⟩

/-- Settles O36: a 12-bit literal and a byte add up to less than 65536. -/
theorem jumpPlusV0 : Obligations.JumpPlusV0 := by
  intro nnn s
  refine ⟨s.setPc (wordOfNnn nnn + wordOfByte (s.reg 0)), rfl, ?_, setPc_frame s _⟩
  have hfits : (wordOfNnn nnn).toNat + (wordOfByte (s.reg 0)).toNat < 2 ^ 16 := by
    rw [wordOfNnn_toNat, wordOfByte_toNat]; omega
  rw [setPc_pc, BitVec.toNat_add_of_lt hfits, wordOfNnn_toNat, wordOfByte_toNat]

/-! ### Skips (R103 to R106) -/

/-- An instruction that is a skip on a test for `p` advances pc by 4 if `p` holds and else by 2, and does nothing else. -/
theorem exec_skip_answers {i : Instr} {s : State} {c : Bool} {p : Prop} [Decidable p]
    (he : exec i s = .next (s.skipIf c)) (hc : c = true ↔ p) :
    ∃ t, exec i s = .next t ∧ t.pc.toNat = (s.pc.toNat + if p then 4 else 2) % 65536 ∧ FrameExcept [.pc] s t := by
  refine ⟨_, he, ?_, (frameExcept_skipIf (by simp) c).2 (frameExcept_refl _ s)⟩
  rw [skipIf_pc_toNat, if_congr hc rfl rfl]

theorem beq_byte_iff (a b : Byte) : (a == b) = true ↔ a.toNat = b.toNat := beq_iff_eq.trans BitVec.toNat_inj.symm

theorem bne_byte_iff (a b : Byte) : (a != b) = true ↔ a.toNat ≠ b.toNat := bne_iff_ne.trans BitVec.toNat_inj.symm.not

/-- Settles O34. -/
theorem skipsCompareWithAByte : Obligations.SkipsCompareWithAByte := fun x nn s =>
  ⟨packXnn_toNat 0x3 x nn, packXnn_toNat 0x4 x nn, exec_skip_answers rfl (beq_byte_iff (s.reg x) nn),
    exec_skip_answers rfl (bne_byte_iff (s.reg x) nn)⟩

/-- Settles O35: the words without a meaning are two lines of the unknown space (O5). -/
theorem skipsCompareRegisters : Obligations.SkipsCompareRegisters := by
  intro x y s
  have hunknown : ∀ w : Word, (w.toNat / 4096 = 0x5 ∨ w.toNat / 4096 = 0x9) → w.toNat % 16 ≠ 0 →
      decodeWord w = none := by
    rintro w (hf | hf) hn
    · exact (unknownSpaceIsTheTable w).2 (.inr (.inl ⟨hf, hn⟩))
    · exact (unknownSpaceIsTheTable w).2 (.inr (.inr (.inr (.inl ⟨hf, hn⟩))))
  exact ⟨packXyn_toNat 0x5 x y 0, packXyn_toNat 0x9 x y 0, hunknown,
    exec_skip_answers rfl (beq_byte_iff (s.reg x) (s.reg y)),
    exec_skip_answers rfl (bne_byte_iff (s.reg x) (s.reg y))⟩

end Sys2Proof.Machine

/-!
PROOFS of the family spec/42_alu.md. The instructions that write one register, and those that write VF and then their
destination, each have one lemma for the whole of what they answer; a statement is that lemma with the instruction's values
read as numbers.
-/

namespace Sys2Proof.Machine

/-! ### Flags and registers as numbers -/

theorem carryFlag_toNat (a b : Byte) : (carryFlag a b).toNat = if a.toNat + b.toNat > 255 then 1 else 0 := by
  rw [carryFlag, flagByte_toNat]; simp only [decide_eq_true_eq]

theorem notBorrowFlag_toNat (a b : Byte) : (notBorrowFlag a b).toNat = if a.toNat < b.toNat then 0 else 1 := by
  rw [notBorrowFlag, flagByte_toNat]; simp only [Bool.not_eq_true', decide_eq_false_iff_not, ite_not]

theorem lowBitFlag_toNat (a : Byte) : (lowBitFlag a).toNat = a.toNat % 2 :=
  (BitVec.toNat_and a 1).trans (Nat.and_two_pow_sub_one_eq_mod _ 1)

theorem highBitFlag_toNat (a : Byte) : (highBitFlag a).toNat = a.toNat / 128 := by
  rw [highBitFlag, BitVec.toNat_ushiftRight, Nat.shiftRight_eq_div_pow]

theorem byte_shiftRight_one_toNat (a : Byte) : (a >>> 1).toNat = a.toNat / 2 := by
  rw [BitVec.toNat_ushiftRight, Nat.shiftRight_eq_div_pow]

theorem byte_shiftLeft_one_toNat (a : Byte) : (a <<< 1).toNat = a.toNat * 2 % 256 := by
  rw [BitVec.toNat_shiftLeft, Nat.shiftLeft_eq]

theorem byte_sub_toNat (a b : Byte) : (a - b).toNat = (a.toNat + 256 - b.toNat) % 256 := by
  have hb := b.isLt
  rw [BitVec.toNat_sub]; omega

theorem reg_setReg_toNat (s : State) (r q : Reg) (b : Byte) :
    ((s.setReg r b).reg q).toNat = if q = r then b.toNat else (s.reg q).toNat := by
  rw [reg_setReg, apply_ite BitVec.toNat]

/-! ### The answers of the instructions that write a register -/

section
variable {i : Instr} {s : State} {x : Reg} {b : Byte}

/-- An instruction that writes `b` to one register and advances does nothing else (R93). -/
theorem exec_setReg_answers (he : exec i s = .next (s.setReg x b).advance) :
    ∃ t, exec i s = .next t ∧ t.reg x = b ∧ t.pc.toNat = (s.pc.toNat + 2) % 65536 ∧
      RegsExcept [x] s t ∧ FrameExcept [.pc, .regs] s t := by
  refine ⟨_, he, reg_setReg_self s x b, advance_pc_toNat _, fun r hr => ?_, by simp⟩
  exact reg_setReg_ne s b (List.ne_of_not_mem_cons hr)

theorem exec_setReg_answers_toNat {n : Nat} (he : exec i s = .next (s.setReg x b).advance) (hn : b.toNat = n) :
    ∃ t, exec i s = .next t ∧ (t.reg x).toNat = n ∧ t.pc.toNat = (s.pc.toNat + 2) % 65536 ∧
      RegsExcept [x] s t ∧ FrameExcept [.pc, .regs] s t := by
  obtain ⟨t, ht, hx, hrest⟩ := exec_setReg_answers he
  exact ⟨t, ht, hx ▸ hn, hrest⟩

/-- An instruction that writes a flag to VF, then `b` to its destination, and advances: the flag survives unless VF is the
destination (R11). -/
theorem exec_flag_answers {f : Byte} {m n : Nat} (he : exec i s = .next ((s.setReg VF f).setReg x b).advance)
    (hn : b.toNat = n) (hm : f.toNat = m) :
    ∃ t, exec i s = .next t ∧ (t.reg x).toNat = n ∧ (x ≠ VF → (t.reg VF).toNat = m) ∧
      t.pc.toNat = (s.pc.toNat + 2) % 65536 ∧ RegsExcept [x, VF] s t ∧ FrameExcept [.pc, .regs] s t := by
  subst hn hm
  refine ⟨_, he, ?dest, fun hx => ?flag, advance_pc_toNat _, fun r hr => ?others, by simp⟩
  case dest => rw [advance_reg, reg_setReg_self]
  case flag => rw [advance_reg, reg_setReg_ne _ b hx.symm, reg_setReg_self]
  case others =>
    obtain ⟨hrx, hrf⟩ : r ≠ x ∧ r ≠ VF := by simpa using hr
    rw [advance_reg, reg_setReg_ne _ b hrx, reg_setReg_ne s f hrf]

/-- SUB and SUBN, as minuend less subtrahend: the flag compares the registers before it is written, the difference is of the
registers `u` after that (R127, R129). -/
theorem exec_subtraction_answers {a c : Reg} {u : State} (hu : u = s.setReg VF (notBorrowFlag (s.reg a) (s.reg c)))
    (he : exec i s = .next (u.setReg x (u.reg a - u.reg c)).advance) :
    ∃ t f, exec i s = .next t ∧ f = (if (s.reg a).toNat < (s.reg c).toNat then 0 else 1) ∧
      (t.reg x).toNat = ((if a = VF then f else (s.reg a).toNat) + 256 - (if c = VF then f else (s.reg c).toNat)) % 256 ∧
      (x ≠ VF → (t.reg VF).toNat = f) ∧
      t.pc.toNat = (s.pc.toNat + 2) % 65536 ∧ RegsExcept [x, VF] s t ∧ FrameExcept [.pc, .regs] s t := by
  subst hu
  have hflag := notBorrowFlag_toNat (s.reg a) (s.reg c)
  obtain ⟨t, ht, hx, hrest⟩ := exec_flag_answers he (byte_sub_toNat _ _) hflag
  rw [reg_setReg_toNat, reg_setReg_toNat, hflag] at hx
  exact ⟨t, _, ht, rfl, hx, hrest⟩

end

/-! ### The statements -/

/-- Settles O41: the minuend is V[x] in SUB and V[y] in SUBN. -/
theorem subtractionsSetNotBorrow : Obligations.SubtractionsSetNotBorrow := fun _ _ _ =>
  ⟨exec_subtraction_answers rfl rfl, exec_subtraction_answers rfl rfl⟩

/-- Settles O42: where x is VF the flag just written is shifted, a bit that SHR drops and SHL doubles. -/
theorem shiftsByOneBit : Obligations.ShiftsByOneBit := by
  intro x y s
  refine ⟨exec_flag_answers rfl ?shr (lowBitFlag_toNat _), exec_flag_answers rfl ?shl (highBitFlag_toNat _)⟩
  case shr =>
    rw [byte_shiftRight_one_toNat, reg_setReg_toNat, lowBitFlag_toNat]
    split <;> omega
  case shl =>
    have hb := (s.reg x).isLt
    rw [byte_shiftLeft_one_toNat, reg_setReg_toNat, highBitFlag_toNat]
    split <;> omega

/-- Settles O37. -/
theorem loadsAByteOrARegister : Obligations.LoadsAByteOrARegister := fun x y nn _ =>
  ⟨packXnn_toNat 0x6 x nn, packXyn_toNat 0x8 x y 0x0, exec_setReg_answers rfl, exec_setReg_answers rfl⟩

/-- Settles O38. -/
theorem addByteWrapsWithoutFlag : Obligations.AddByteWrapsWithoutFlag := fun x nn s =>
  ⟨packXnn_toNat 0x7 x nn, exec_setReg_answers_toNat rfl (BitVec.toNat_add (s.reg x) nn)⟩

/-- Settles O39: three values of the last digit of 8XYN. -/
theorem logicIsBitwise : Obligations.LogicIsBitwise := by
  intro x y s
  have hword (n : BitVec 4) : (packXyn 0x8 x y n).toNat = 0x8000 + n.toNat + x.val * 0x100 + y.val * 0x10 := by
    rw [packXyn_toNat, show (0x8 : BitVec 4).toNat = 8 from rfl]; omega
  exact ⟨hword 0x1, hword 0x2, hword 0x3, exec_setReg_answers_toNat rfl (BitVec.toNat_or ..),
    exec_setReg_answers_toNat rfl (BitVec.toNat_and ..), exec_setReg_answers_toNat rfl (BitVec.toNat_xor ..)⟩

/-- Settles O40. -/
theorem addSetsCarry : Obligations.AddSetsCarry := fun x y s =>
  exec_flag_answers rfl (BitVec.toNat_add (s.reg x) (s.reg y)) (carryFlag_toNat _ _)

/-- Settles O43: the byte drawn is the free value brought into the range, by `drawValue_le`. -/
theorem randomByteIsMasked : Obligations.RandomByteIsMasked := by
  intro x nn s
  have hreg : (rndWith s.draw x nn s).reg x = s.draw &&& nn := reg_setReg_self s x _
  exact ⟨rndWith s.draw x nn s, s.draw.toNat, rfl, drawValue_le _ _, by rw [hreg, BitVec.toNat_and], rfl,
    advance_pc_toNat _, exec_regsExcept (i := .rnd x nn) rfl, exec_frame (i := .rnd x nn) rfl⟩

end Sys2Proof.Machine

/-!
PROOFS of the family spec/43_memory_index.md. What an instruction answers when it raises an error, and when it writes I alone,
is said once for all of them; the statements about transfers split by the two checks, and what the bytes and registers read
as is the law of the store or load itself.
-/

namespace Sys2Proof.Machine

/-! ### Addresses, digits and flags as numbers -/

/-- Data bytes at different offsets have different addresses, as no address is reduced (R55). -/
@[simp] theorem dataAddr_inj (s : State) {j k : Nat} : s.dataAddr j = s.dataAddr k ↔ j = k := Nat.add_left_cancel_iff

theorem bcdHundreds_toNat (v : Byte) : (bcdHundreds v).toNat = v.toNat / 100 := BitVec.toNat_udiv

theorem bcdTens_toNat (v : Byte) : (bcdTens v).toNat = v.toNat / 10 % 10 := by
  rw [bcdTens, BitVec.toNat_umod, BitVec.toNat_udiv]; rfl

theorem bcdOnes_toNat (v : Byte) : (bcdOnes v).toNat = v.toNat % 10 := BitVec.toNat_umod

theorem indexOverflowFlag_toNat (w : Word) (b : Byte) :
    (indexOverflowFlag w b).toNat = if w.toNat + b.toNat > 0xFFF then 1 else 0 := by
  rw [indexOverflowFlag, flagByte_toNat]; simp only [decide_eq_true_eq]

/-! ### The answers of the instructions that raise an error, write I, or move it -/

section
variable {i : Instr} {s : State}

theorem exec_raiseHalt_answers {reason : HaltReason} {op : Word} (he : exec i s = .next (s.raiseHalt reason op)) :
    ∃ t, exec i s = .next t ∧ t.run = .halted reason op s.pc ∧ FrameExcept [.run] s t :=
  ⟨_, he, raiseHalt_run s _ _, raiseHalt_frame s _ _⟩

theorem exec_setIndex_answers {w : Word} {n : Nat} (he : exec i s = .next (s.setIndex w).advance) (hn : w.toNat = n) :
    ∃ t, exec i s = .next t ∧ t.index.toNat = n ∧ t.pc.toNat = (s.pc.toNat + 2) % 65536 ∧
      FrameExcept [.pc, .index] s t :=
  ⟨_, he, hn, advance_pc_toNat _, by simp⟩

/-- Past a range inside memory I does not wrap (R144, R145). -/
theorem index_past_range_toNat {x : Reg} (h : s.index.toNat + x.val ≤ 0xFFF) :
    (s.index + BitVec.ofNat 16 (x.val + 1)).toNat = s.index.toNat + x.val + 1 := by
  rw [word_add_toNat]; omega

/-- A store at I inside the font region stays below 0x1000, so the range check passes and the font check decides (R205). -/
theorem font_store_checks {last : Nat} (hl : last ≤ 0xF) (hi : s.index.toNat ≤ 0x04F) (hp : s.params.fontWrite = .fault) :
    s.dataOutOfRange last = false ∧ s.fontForbids = true :=
  ⟨dataOutOfRange_eq_false (by omega), (fontForbids_iff s).2 ⟨hp, hi⟩⟩

end

/-! ### The statements -/

/-- Settles O47: the later digits do not overwrite the earlier ones, as the three addresses differ. -/
theorem bcdStore : Obligations.BcdStore := by
  intro x s
  refine ⟨fun hi hw => ?stored, fun hi => ?beyond, fun hi hp => ?font⟩
  case stored =>
    have he := exec_ldBVx_of_stored x (dataOutOfRange_eq_false hi) (fontForbids_eq_false hw)
    refine ⟨_, he, ?hundreds, ?tens, ?ones, advance_pc_toNat _, exec_bytesExcept he, by simp⟩
    case hundreds => simp [readByte_writeByte, bcdHundreds_toNat]
    case tens => simp [readByte_writeByte, bcdTens_toNat]
    case ones => simp [bcdOnes_toNat]
  case beyond => exact exec_raiseHalt_answers (exec_ldBVx_of_outOfRange x ((dataOutOfRange_iff s 2).2 hi))
  case font =>
    obtain ⟨hr, hf⟩ := font_store_checks (last := 2) (by omega) hi hp
    exact exec_raiseHalt_answers (exec_ldBVx_of_font x hr hf)

/-- Settles O48. -/
theorem registerStore : Obligations.RegisterStore := by
  intro x s
  refine ⟨fun hi hw => ?stored, fun hi => ?beyond, fun hi hp => ?font⟩
  case stored =>
    refine ⟨_, exec_ldMiVx_of_stored (dataOutOfRange_eq_false hi) (fontForbids_eq_false hw),
      readByte_storeRegs s x, fun a ha => ?others, index_past_range_toNat hi, ?pc, by simp⟩
    case others => exact readByte_storeRegs_ne s _ a fun k hk => ha k ((mem_regsUpTo x k).1 hk)
    case pc => rw [advance_pc_toNat, setIndex_pc, storeRegs_eq]
  case beyond => exact exec_raiseHalt_answers (exec_ldMiVx_of_outOfRange ((dataOutOfRange_iff s _).2 hi))
  case font =>
    obtain ⟨hr, hf⟩ := font_store_checks (Nat.le_of_lt_succ x.isLt) hi hp
    exact exec_raiseHalt_answers (exec_ldMiVx_of_font hr hf)

/-- Settles O49. -/
theorem registerLoad : Obligations.RegisterLoad := by
  intro x s
  refine ⟨fun hi => ?loaded, fun hi => ?beyond⟩
  case loaded =>
    refine ⟨_, exec_ldVxMi_of_loaded (dataOutOfRange_eq_false hi), reg_loadRegs s x, index_past_range_toNat hi, ?pc,
      by simp⟩
    rw [advance_pc_toNat, setIndex_pc, loadRegs_eq]
  case beyond => exact exec_raiseHalt_answers (exec_ldVxMi_of_outOfRange ((dataOutOfRange_iff s _).2 hi))

/-- Settles O50: the load from `u` (O49) reads the bytes of `t` at the addresses of `s`, which hold the registers of `s`. -/
theorem loadAfterStoreRestores : Obligations.LoadAfterStoreRestores := by
  intro x s t u hi hw h _ hmem hidx
  obtain ⟨w, hload, hreg, -⟩ := (registerLoad x u).1 (by rwa [hidx])
  refine ⟨w, hload, fun k hk => ?restored, fun k hk => ?above⟩
  case restored =>
    calc w.reg k = u.readByte (u.dataAddr k.val) := by rw [hreg, if_pos hk]
      _ = t.readByte (s.dataAddr k.val) := by rw [State.dataAddr, hidx]; exact hmem _
      _ = s.reg k := readByte_of_exec_ldMiVx (dataOutOfRange_eq_false hi) (fontForbids_eq_false hw) h hk
  case above => rw [hreg, if_neg (Nat.not_le.2 hk)]

/-- Settles O44. -/
theorem loadIndexLiteral : Obligations.LoadIndexLiteral := fun nnn _ =>
  ⟨packNnn_toNat 0xA nnn, exec_setIndex_answers rfl (wordOfNnn_toNat nnn)⟩

/-- Settles O45: the register added is read after the flag write, so it is the flag where x is VF. -/
theorem addToIndexFlagsOverflow : Obligations.AddToIndexFlagsOverflow := by
  intro x s
  have hflag := indexOverflowFlag_toNat s.index (s.reg x)
  refine ⟨_, _, rfl, rfl, ?flag, ?index, advance_pc_toNat _, exec_regsExcept (i := .addIVx x) rfl, by simp⟩
  case flag => rw [advance_reg, setIndex_reg, reg_setReg_self, hflag]
  case index =>
    rw [advance_index, setIndex_index, setReg_index, BitVec.toNat_add, wordOfByte_toNat, reg_setReg_toNat, hflag]

/-- Settles O46: five times a byte is below 65536. -/
theorem fontGlyphAddress : Obligations.FontGlyphAddress := by
  intro x s
  have hmul : (wordOfByte (s.reg x) * 5).toNat = (s.reg x).toNat * 5 := by
    rw [BitVec.toNat_mul, wordOfByte_toNat]
    exact Nat.mod_eq_of_lt (show (s.reg x).toNat * 5 < 2 ^ 16 by omega)
  exact exec_setIndex_answers rfl hmul

end Sys2Proof.Machine

/-!
PROOFS of the family spec/44_graphics.md. A draw that passes its checks is read off the laws of the pixel loop, pixel by pixel
and for VF; the second draw is the same statement about a state that reads the same sprite.
-/

namespace Sys2Proof.Machine

/-! ### The screen and VF after a draw (R161) -/

section
variable {s : State} {x y : Reg} {n : BitVec 4}

/-- The state a draw of the sprite leaves before pc advances. -/
def State.drawSprite (s : State) (x y : Reg) (n : BitVec 4) : State :=
  s.drawBits (s.spriteBits (s.reg x).toNat (s.reg y).toNat n.toNat)

theorem pixel_drawSprite_of_covers {px : Fin 64} {py : Fin 32} (h : Covers s x y n px py) :
    (s.drawSprite x y n).pixel px py = !s.pixel px py :=
  (pixel_plot (drawTargets s x y n) (nodup_drawTargets s x y n) s.fb false px py).trans
    (if_pos ((mem_drawTargets s x y n px py).2 h))

theorem pixel_drawSprite_of_not_covers {px : Fin 64} {py : Fin 32} (h : ¬ Covers s x y n px py) :
    (s.drawSprite x y n).pixel px py = s.pixel px py :=
  (pixel_plot (drawTargets s x y n) (nodup_drawTargets s x y n) s.fb false px py).trans
    (if_neg (mt (mem_drawTargets s x y n px py).1 h))

/-- The collision flag is that of the screen before the draw: no target is drawn twice. -/
theorem hit_drawTargets (s : State) (x y : Reg) (n : BitVec 4) :
    (plot (drawTargets s x y n) (s.fb, false)).2 = true ↔
      ∃ px py, Covers s x y n px py ∧ s.pixel px py = true := by
  simp [hit_plot _ (nodup_drawTargets s x y n), mem_drawTargets, State.pixel]

theorem reg_VF_drawSprite (s : State) (x y : Reg) (n : BitVec 4) :
    (s.drawSprite x y n).reg VF = flagByte (plot (drawTargets s x y n) (s.fb, false)).2 :=
  reg_setReg_self s VF _

theorem reg_VF_drawSprite_of_hit (h : ∃ px py, Covers s x y n px py ∧ s.pixel px py = true) :
    (s.drawSprite x y n).reg VF = 1 := by
  rw [reg_VF_drawSprite, (hit_drawTargets s x y n).2 h]; rfl

theorem reg_VF_drawSprite_of_no_hit (h : ∀ px py, Covers s x y n px py → s.pixel px py = false) :
    (s.drawSprite x y n).reg VF = 0 := by
  have hmiss : (plot (drawTargets s x y n) (s.fb, false)).2 = false := Bool.eq_false_iff.2 fun hhit => by
    obtain ⟨px, py, hc, hon⟩ := (hit_drawTargets s x y n).1 hhit
    rw [h px py hc] at hon; cases hon
  rw [reg_VF_drawSprite, hmiss]; rfl

end

/-! ### States that read the same sprite -/

section
variable {s u : State}

theorem spriteReadable_congr (hi : u.index = s.index) (n : BitVec 4) : SpriteReadable u n ↔ SpriteReadable s n := by
  rw [SpriteReadable, SpriteReadable, hi]

theorem spriteSet_congr (hm : Same .mem s u) (hi : u.index = s.index) (n : BitVec 4) (r c : Nat) :
    SpriteSet u n r c ↔ SpriteSet s n r c := by
  rw [SpriteSet, SpriteSet, hi, hm]

variable {x y : Reg}

theorem spriteOnScreen_congr (hm : Same .mem s u) (hi : u.index = s.index) (hx : u.reg x = s.reg x)
    (hy : u.reg y = s.reg y) (n : BitVec 4) : SpriteOnScreen u x y n ↔ SpriteOnScreen s x y n := by
  simp only [SpriteOnScreen, spriteSet_congr hm hi, hx, hy]

theorem covers_congr (hp : Same .params s u) (hm : Same .mem s u) (hi : u.index = s.index) (hx : u.reg x = s.reg x)
    (hy : u.reg y = s.reg y) (n : BitVec 4) (px : Fin 64) (py : Fin 32) :
    Covers u x y n px py ↔ Covers s x y n px py := by
  simp only [Covers, spriteSet_congr hm hi, show u.params = s.params from hp, hx, hy]

end

/-! ### The statements -/

/-- Settles O52. -/
theorem clearScreen : Obligations.ClearScreen := fun _ =>
  ⟨rfl, _, rfl, pixel_blank, rfl, advance_pc_toNat _, by simp⟩

/-- Settles O53. -/
theorem drawInvertsTheCoveredPixels : Obligations.DrawInvertsTheCoveredPixels := by
  intro x y n s hr ho
  have he : exec (.drw x y n) s = .next (s.drawSprite x y n).advance := exec_drw_of_drawn hr ho
  exact ⟨_, he, fun _ _ => ⟨pixel_drawSprite_of_covers, pixel_drawSprite_of_not_covers⟩, reg_VF_drawSprite_of_hit,
    reg_VF_drawSprite_of_no_hit, rfl, advance_pc_toNat _, exec_regsExcept he, by simp [State.drawSprite]⟩

/-- Settles O54: both draws are O53, and the second covers the pixels of the first, each the inverse of what it was in `s`. -/
theorem drawTwiceRestores : Obligations.DrawTwiceRestores := by
  intro x y n s t u hr ho h hscreen hparams hmem hi hx hy
  have hp : Same .params s u := (exec_frame h .params (by simp [partsWritten])).trans hparams
  have hm : Same .mem s u := (exec_frame h .mem (by simp [partsWritten])).trans hmem
  have hcov := covers_congr hp hm hi hx hy n
  obtain ⟨t', h', hpix, -⟩ := drawInvertsTheCoveredPixels x y n s hr ho
  obtain rfl : t = t' := Host.Outcome.next.inj (h.symm.trans h')
  obtain ⟨v, hv, hpix', hhit, hmiss, -⟩ := drawInvertsTheCoveredPixels x y n u ((spriteReadable_congr hi n).2 hr)
    fun hrej => (spriteOnScreen_congr hm hi hx hy n).2 (ho (hp ▸ hrej))
  have hinv {px py} (hc : Covers s x y n px py) : u.pixel px py = !s.pixel px py :=
    (hscreen px py).trans ((hpix px py).1 hc)
  refine ⟨v, hv, fun px py => ?restored, ?flag⟩
  case restored =>
    by_cases hc : Covers s x y n px py
    · rw [(hpix' px py).1 ((hcov px py).2 hc), hinv hc, Bool.not_not]
    · rw [(hpix' px py).2 (mt (hcov px py).1 hc), hscreen, (hpix px py).2 hc]
  case flag =>
    by_cases hoff : ∃ px py, Covers s x y n px py ∧ s.pixel px py = false
    · obtain ⟨px, py, hc, hpx⟩ := hoff
      have h1 : v.reg VF = 1 := hhit ⟨px, py, (hcov px py).2 hc, by rw [hinv hc, hpx]; rfl⟩
      exact ⟨iff_of_true h1 ⟨px, py, hc, hpx⟩, .inr h1⟩
    · have h0 : v.reg VF = 0 := hmiss fun px py hc => by
        have hc' := (hcov px py).1 hc
        have hon : s.pixel px py = true := Bool.eq_true_of_not_eq_false fun hpx => hoff ⟨px, py, hc', hpx⟩
        rw [hinv hc', hon]; rfl
      exact ⟨iff_of_false (by rw [h0]; decide) hoff, .inl h0⟩

/-- Settles O55. -/
theorem drawHaltsBeforeAnyWrite : Obligations.DrawHaltsBeforeAnyWrite := fun x y _ _ =>
  ⟨fun hr => exec_raiseHalt_answers (exec_drw_of_unreadable x y hr),
    fun hr hp ho => exec_raiseHalt_answers (exec_drw_of_offScreen hr hp ho)⟩

end Sys2Proof.Machine

/-!
PROOFS of the family spec/45_timers_keypad.md. A step whose instruction completed ends with the tick of what the instruction
left, and a step that ends halted writes `run` alone; the timers are read off the one or the other.
-/

namespace Sys2Proof.Machine

/-! ### The tick (R170, R171) -/

/-- The tick raises the edge exactly at ST = 1 (R171). -/
theorem tick_soundEdge_iff (s : State) : s.tick.soundEdge = true ↔ s.soundEdge = true ∨ s.st.toNat = 1 := by
  rw [tick_soundEdge, Bool.or_eq_true, decide_eq_true_eq, ← BitVec.toNat_inj]; rfl

/-- The tick writes the timers and the edge alone. -/
theorem tick_frame (s : State) : FrameExcept [.delay, .sound, .edge] s s.tick :=
  fun p hp => by cases p <;> simp_all [Same]

section
variable {s t u : State} {op : Word} {i : Instr}

/-- A step whose instruction completed ends with the tick (R90). -/
theorem step_of_completed (hr : s.run = .running) (hf : s.fetch = some op) (hd : decodeWord op = some i)
    (he : exec i s = .next u) (hu : u.run = .running) : step s = .next u.tick :=
  finish_of_running hu ▸ step_of_exec hr hf hd he

/-- A step that ends halted, by an error it met or as a no-op, writes `run` alone (R96, R201). -/
theorem step_frame_of_halted (h : step s = .next t) (ht : t.run ≠ .running) : FrameExcept [.run] s t := by
  rcases step_cases h with ⟨-, rfl⟩ | ⟨-, -, rfl⟩ | ⟨op, -, -, -, rfl⟩ | ⟨op, i, u, hr, -, -, he, rfl⟩
  · exact frameExcept_refl _ _
  · exact raiseHalt_frame s _ _
  · exact raiseHalt_frame s _ _
  · rw [finish_run] at ht
    rw [finish_of_halted ht]
    rcases exec_run_cases he with hrun | ⟨reason, -, -, rfl⟩
    · exact absurd (hrun.trans hr) ht
    · exact raiseHalt_frame s _ _

end

/-- Settles O27. -/
theorem delayTimerTicks : Obligations.DelayTimerTicks := by
  intro s t h
  refine ⟨fun op i u hr hf hd he hu => ?completed, fun ht => step_frame_of_halted h ht .delay (by simp)⟩
  case completed =>
    obtain rfl : t = u.tick := Host.Outcome.next.inj (h.symm.trans (step_of_completed hr hf hd he hu))
    exact countDown_toNat u.dt

/-- Settles O28: no instruction writes the edge, so the tick finds it as the step did. -/
theorem soundTimerTicksAndRaisesTheEdge : Obligations.SoundTimerTicksAndRaisesTheEdge := by
  intro s t h
  refine ⟨fun op i u hr hf hd he hu => ?completed, fun ht => ?halted⟩
  case completed =>
    obtain rfl : t = u.tick := Host.Outcome.next.inj (h.symm.trans (step_of_completed hr hf hd he hu))
    have hedge : u.soundEdge = s.soundEdge := exec_frame he .edge (by cases i <;> simp [partsWritten])
    exact ⟨countDown_toNat u.st, hedge ▸ tick_soundEdge_iff u, tick_frame u⟩
  case halted =>
    have hframe := step_frame_of_halted h ht
    exact ⟨hframe .sound (by simp), hframe .edge (by simp)⟩

/-- Settles O29: each of the three completes, and the tick then sees the timer as the instruction left it. -/
theorem timerWriteIsTickedInItsOwnStep : Obligations.TimerWriteIsTickedInItsOwnStep := by
  intro s op x hr hf
  refine ⟨fun hd => ?delay, fun hd => ?sound, fun hd => ?read⟩
  case delay => exact ⟨_, step_of_completed hr hf hd rfl hr, countDown_toNat (s.reg x)⟩
  case sound => exact ⟨_, step_of_completed hr hf hd rfl hr, countDown_toNat (s.reg x), tick_soundEdge_iff _⟩
  case read => exact ⟨_, step_of_completed hr hf hd rfl hr, reg_setReg_self s x s.dt, countDown_toNat s.dt⟩

/-! ### The instructions (R172 to R177) -/

/-- Settles O56. -/
theorem timerMoves : Obligations.TimerMoves := fun _ _ =>
  ⟨exec_setReg_answers rfl, ⟨_, rfl, rfl, advance_pc_toNat _, by simp⟩, ⟨_, rfl, rfl, advance_pc_toNat _, by simp⟩⟩

/-- Settles O57: V[x] is a key's number or above every one of them. -/
theorem keySkips : Obligations.KeySkips := by
  intro x s
  refine ⟨fun k hk => ?key, fun hk => ?noKey⟩
  case key =>
    exact ⟨exec_skip_answers (exec_skp_of_key hk) Iff.rfl,
      exec_skip_answers (exec_sknp_of_key hk) (by rw [Bool.not_eq_true'])⟩
  case noKey =>
    exact ⟨exec_raiseHalt_answers (exec_skp_of_no_key hk), exec_raiseHalt_answers (exec_sknp_of_no_key hk)⟩

/-- Settles O58: with no key pressed the instruction completes in the state it began in. -/
theorem waitForKey : Obligations.WaitForKey := by
  intro x s
  refine ⟨fun k hk hleast => ?pressed, fun hnone => ?none⟩
  case pressed =>
    have hbyte : (BitVec.ofNat 8 k.val).toNat = k.val := Nat.mod_eq_of_lt (by omega)
    exact exec_setReg_answers_toNat (exec_ldVxK_of_key x (firstKey_eq_some s k hk hleast)) hbyte
  case none =>
    have he : exec (.ldVxK x) s = .next s := exec_ldVxK_of_no_key x ((firstKey_none_iff s).2 hnone)
    exact ⟨he, fun op hr hf hd => step_of_completed hr hf hd he hr⟩

end Sys2Proof.Machine

/-!
PROOFS of the family spec/60_exceptions.md. An error writes `run` alone, and an instruction meets one exactly if a cause of R202
applies to it, which is read off its checks; the host's operations write nothing the invariant speaks of but memory, whose
load begins above the font.
-/

namespace Sys2Proof.Machine

/-! ### A step that meets an error (R201, R203) -/

/-- Settles O14: the fetch failed, the word decodes to nothing, or its instruction raised, whose encoding is the word. -/
theorem failingStepChangesOnlyRun : Obligations.FailingStepChangesOnlyRun := by
  intro s t hr h ht
  rcases step_cases h with ⟨hhalted, -⟩ | ⟨-, hf, rfl⟩ | ⟨op, -, hf, -, rfl⟩ | ⟨op, i, u, -, hf, hd, he, rfl⟩
  · exact absurd hr hhalted
  · exact ⟨_, _, rfl, .inr ⟨hf, rfl, rfl⟩⟩
  · exact ⟨_, op, rfl, .inl hf⟩
  · rw [finish_run] at ht
    rcases exec_run_cases he with hrun | ⟨reason, -, -, rfl⟩
    · exact absurd (hrun.trans hr) ht
    · rw [finish_of_halted ht, encodeOfDecodeIsTheWord op i hd]
      exact ⟨reason, op, rfl, .inl hf⟩

/-- Of the host's operations reset alone writes `run` (R207). -/
theorem hostDo_run (s : State) {op : HostOp} (h : op ≠ .reset) : (s.hostDo op).run = s.run := by
  cases op with
  | reset => exact absurd rfl h
  | load bytes =>
    rw [State.hostDo, State.load]
    split
    · rw [Option.getD_some, copyBytes_eq]
    · rfl
  | setKey | clearRedraw | clearSoundEdge => rfl

/-- Settles O11. -/
theorem unknownOpcodeHalts : Obligations.UnknownOpcodeHalts := by
  intro s op hr hf hd
  have hhalted : (s.raiseHalt .unknownOpcode op).run ≠ .running := by simp
  exact ⟨_, _, step_of_unknown hr hf hd, raiseHalt_run s _ _, raiseHalt_frame s _ _, run_of_halted hhalted,
    fun _ => hostDo_run _, rfl⟩

/-! ### The causes that can apply to an instruction (R202)

An instruction that raises has its own line of the table, with the conditions written as the checks it makes. -/

section
variable {s : State} {reason : HaltReason}

@[simp] theorem causeApplies_ret : CauseApplies .ret s reason ↔ reason = .stackUnderflow ∧ s.sp.val = 0 := by
  cases reason <;> simp [CauseApplies]

@[simp] theorem causeApplies_call {nnn : BitVec 12} :
    CauseApplies (.call nnn) s reason ↔ reason = .stackOverflow ∧ s.sp.val = 16 := by
  cases reason <;> simp [CauseApplies]

@[simp] theorem causeApplies_drw {x y : Reg} {n : BitVec 4} :
    CauseApplies (.drw x y n) s reason ↔ (reason = .memoryOutOfRange ∧ ¬ SpriteReadable s n) ∨
      (reason = .spriteOutOfBounds ∧ s.params.sprite = .reject ∧ ¬ SpriteOnScreen s x y n) := by
  cases reason <;> simp [CauseApplies]

@[simp] theorem causeApplies_skp {x : Reg} :
    CauseApplies (.skp x) s reason ↔ reason = .keyIndexOutOfRange ∧ (s.reg x).toNat > 0xF := by
  cases reason <;> simp [CauseApplies]

@[simp] theorem causeApplies_sknp {x : Reg} :
    CauseApplies (.sknp x) s reason ↔ reason = .keyIndexOutOfRange ∧ (s.reg x).toNat > 0xF := by
  cases reason <;> simp [CauseApplies]

@[simp] theorem causeApplies_ldBVx {x : Reg} :
    CauseApplies (.ldBVx x) s reason ↔ (reason = .memoryOutOfRange ∧ s.dataOutOfRange 2 = true) ∨
      (reason = .fontWrite ∧ s.fontForbids = true) := by
  cases reason <;> simp [CauseApplies, dataOutOfRange_iff, fontForbids_iff]

@[simp] theorem causeApplies_ldMiVx {x : Reg} :
    CauseApplies (.ldMiVx x) s reason ↔ (reason = .memoryOutOfRange ∧ s.dataOutOfRange x.val = true) ∨
      (reason = .fontWrite ∧ s.fontForbids = true) := by
  cases reason <;> simp [CauseApplies, dataOutOfRange_iff, fontForbids_iff]

@[simp] theorem causeApplies_ldVxMi {x : Reg} :
    CauseApplies (.ldVxMi x) s reason ↔ reason = .memoryOutOfRange ∧ s.dataOutOfRange x.val = true := by
  cases reason <;> simp [CauseApplies, dataOutOfRange_iff]

end

/-! ### Raising exactly the cause that applies (R204, R205) -/

/-- The cause that an instruction has to report: it applies, and the memory cause goes before any other (R205). -/
def ReportedCause (i : Instr) (s : State) (reason : HaltReason) : Prop :=
  CauseApplies i s reason ∧ (CauseApplies i s .memoryOutOfRange → reason = .memoryOutOfRange)

/-- An instruction to which no cause applies leaves `run`, and any other raises the cause it has to report. -/
theorem exec_cause_cases {i : Instr} {s t : State} (h : exec i s = .next t) :
    (t.run = s.run ∧ ∀ reason, ¬ CauseApplies i s reason) ∨
    ∃ reason, ReportedCause i s reason ∧ t = s.raiseHalt reason (encodeWord i) := by
  unfold ReportedCause
  cases i with
  | ret =>
    rcases exec_ret_cases h with ⟨h0, rfl⟩ | ⟨j, hj, rfl⟩
    · exact .inr ⟨.stackUnderflow, by simp [h0], rfl⟩
    · exact .inl ⟨rfl, by simp [hj]⟩
  | call =>
    rcases exec_call_cases h with ⟨hfull, rfl⟩ | ⟨hroom, rfl⟩
    · exact .inr ⟨.stackOverflow, by simp [hfull], rfl⟩
    · exact .inl ⟨rfl, by simp [hroom.ne]⟩
  | drw =>
    rcases exec_drw_cases h with ⟨hr, rfl⟩ | ⟨hr, hp, ho, rfl⟩ | ⟨hr, ho, rfl⟩
    · exact .inr ⟨.memoryOutOfRange, by simp [hr], rfl⟩
    · exact .inr ⟨.spriteOutOfBounds, by simp [hr, hp, ho], rfl⟩
    · exact .inl ⟨rfl, by simpa [hr] using ho⟩
  | skp =>
    rcases exec_skp_cases h with ⟨hk, rfl⟩ | ⟨k, hk, rfl⟩
    · exact .inr ⟨.keyIndexOutOfRange, by simp [hk], rfl⟩
    · exact .inl ⟨rfl, fun _ hc => by have := (causeApplies_skp.1 hc).2; omega⟩
  | sknp =>
    rcases exec_sknp_cases h with ⟨hk, rfl⟩ | ⟨k, hk, rfl⟩
    · exact .inr ⟨.keyIndexOutOfRange, by simp [hk], rfl⟩
    · exact .inl ⟨rfl, fun _ hc => by have := (causeApplies_sknp.1 hc).2; omega⟩
  | ldBVx =>
    rcases exec_ldBVx_cases h with ⟨hr, rfl⟩ | ⟨hr, hf, rfl⟩ | ⟨hr, hf, rfl⟩
    · exact .inr ⟨.memoryOutOfRange, by simp [hr], rfl⟩
    · exact .inr ⟨.fontWrite, by simp [hr, hf], rfl⟩
    · exact .inl ⟨rfl, by simp [hr, hf]⟩
  | ldMiVx =>
    rcases exec_ldMiVx_cases h with ⟨hr, rfl⟩ | ⟨hr, hf, rfl⟩ | ⟨hr, hf, rfl⟩
    · exact .inr ⟨.memoryOutOfRange, by simp [hr], rfl⟩
    · exact .inr ⟨.fontWrite, by simp [hr, hf], rfl⟩
    · exact .inl ⟨storeRegs_frame s _ .run (by simp), by simp [hr, hf]⟩
  | ldVxMi =>
    rcases exec_ldVxMi_cases h with ⟨hr, rfl⟩ | ⟨hr, rfl⟩
    · exact .inr ⟨.memoryOutOfRange, by simp [hr], rfl⟩
    · exact .inl ⟨loadRegs_frame s _ .run (by simp), by simp [hr]⟩
  | _ => exact .inl ⟨exec_frame h .run (by simp [partsWritten]), fun reason => by cases reason <;> simp [CauseApplies]⟩

/-- Settles O15. -/
theorem causesAreTheTableOfErrors : Obligations.CausesAreTheTableOfErrors := by
  intro i s hr
  obtain ⟨t, he⟩ := exec_answers i s
  refine ⟨t, he, ?_⟩
  rcases exec_cause_cases he with ⟨hrun, hnone⟩ | ⟨reason, ⟨happlies, hfirst⟩, rfl⟩
  · rw [hrun, hr]
    exact ⟨iff_of_true rfl hnone, nofun, fun hm => absurd hm (hnone _)⟩
  · refine ⟨iff_of_false (by simp) fun hnone => hnone _ happlies, ?_, fun hm => by rw [raiseHalt_run, hfirst hm]⟩
    rintro _ _ _ ⟨⟩
    exact ⟨happlies, rfl, rfl⟩

/-! ### The host and the invariant (R210) -/

/-- The invariant speaks of nothing that the key writes and the flag clears touch. -/
theorem Inv.withHostInputs {s : State} (hs : Inv s) (keys : Vector Bool 16) (redraw edge : Bool) :
    Inv { s with key := keys, redraw := redraw, soundEdge := edge } where
  memWf := hs.memWf
  fontIntact := hs.fontIntact
  pcBound := hs.pcBound
  slotsFetchable := hs.slotsFetchable
  haltRecord := hs.haltRecord

/-- An image that fits in memory above the font keeps the invariant. -/
theorem Inv.copyBytes {s : State} (hs : Inv s) {a : Nat} {bs : List Byte} (ha : 80 ≤ a)
    (hend : a + bs.length ≤ 0x1000) : Inv (s.copyBytes a bs) := by
  have hfont (c : Nat) (hc : c < 80) : (s.copyBytes a bs).readByte c = s.readByte c := by
    rw [readByte_copyBytes, dif_neg fun ⟨hac, _⟩ => by omega]
  have hmem := wf_copyBytes s a bs hs.memWf hend
  rw [copyBytes_eq] at hfont ⊢
  exact {
    memWf := hmem
    fontIntact := fun hp c hc => (hfont c hc).trans (hs.fontIntact hp c hc)
    pcBound := hs.pcBound
    slotsFetchable := hs.slotsFetchable
    haltRecord := hs.haltRecord }

/-- The draw counter, which the host's reset leaves, is no part of the invariant. -/
theorem inv_hostReset (s : State) : Inv s.hostReset :=
  have hs := resetMeetsTheInvariant s.params
  ⟨hs.memWf, hs.fontIntact, hs.pcBound, hs.slotsFetchable, hs.haltRecord⟩

/-- Settles O19. -/
theorem hostOperationsKeepTheInvariant : Obligations.HostOperationsKeepTheInvariant := by
  intro s op hs
  cases op with
  | reset => exact ⟨inv_hostReset s, rfl⟩
  | load bytes =>
    rw [State.hostDo, State.load]
    split
    next hfits =>
      have hlen : bytes.length ≤ progMax := of_decide_eq_true hfits
      exact ⟨hs.copyBytes (by decide) (Nat.add_le_add_left hlen progBase), by rw [Option.getD_some, copyBytes_eq]⟩
    next => exact ⟨hs, rfl⟩
  | setKey k b => exact ⟨hs.withHostInputs _ _ _, rfl⟩
  | clearRedraw => exact ⟨hs.withHostInputs _ _ _, rfl⟩
  | clearSoundEdge => exact ⟨hs.withHostInputs _ _ _, rfl⟩

/-- No step changes the parameters (R34). -/
theorem step_params {s t : State} (h : step s = .next t) : t.params = s.params := by
  rcases step_cases h with ⟨-, rfl⟩ | ⟨-, -, rfl⟩ | ⟨op, -, -, -, rfl⟩ | ⟨op, i, u, -, -, -, he, rfl⟩
  · rfl
  · rfl
  · rfl
  · rw [finish_params, exec_params he]

/-- Settles O20, by induction on the run. -/
theorem reachableStatesMeetTheInvariant : Obligations.ReachableStatesMeetTheInvariant := by
  intro p s h
  induction h with
  | boot => exact ⟨resetMeetsTheInvariant p, rfl⟩
  | step _ hstep ih =>
    obtain ⟨hinv, hp⟩ := ih
    exact ⟨stepKeepsTheInvariant _ _ hinv hstep, (step_params hstep).trans hp⟩
  | host op _ ih =>
    obtain ⟨hinv, hp⟩ := ih
    obtain ⟨hinv', hp'⟩ := hostOperationsKeepTheInvariant _ op hinv
    exact ⟨hinv', hp'.trans hp⟩

/-! ### The flags (R212) -/

theorem clearRedraw_frame (s : State) : FrameExcept [.redraw] s s.clearRedraw :=
  fun p hp => by cases p <;> simp_all [Same]

theorem clearSoundEdge_frame (s : State) : FrameExcept [.edge] s s.clearSoundEdge :=
  fun p hp => by cases p <;> simp_all [Same]

section
variable {i : Instr} {s t : State}

/-- CLS and DRW set the redraw flag, and no other instruction writes it (R30). -/
theorem exec_keeps_redraw (hs : s.redraw = true) (h : exec i s = .next t) : t.redraw = true := by
  cases i with
  | cls => cases h; rfl
  | drw =>
    rcases exec_drw_cases h with ⟨-, rfl⟩ | ⟨-, -, -, rfl⟩ | ⟨-, -, rfl⟩
    exacts [hs, hs, rfl]
  | _ =>
    have hkept : t.redraw = s.redraw := exec_frame h .redraw (by simp [partsWritten])
    exact hkept.trans hs

/-- No instruction writes the edge (R32). -/
theorem exec_soundEdge (h : exec i s = .next t) : t.soundEdge = s.soundEdge :=
  exec_frame h .edge (by cases i <;> simp [partsWritten])

theorem finish_keeps_soundEdge (h : t.soundEdge = true) : t.finish.soundEdge = true := by
  by_cases hr : t.run = .running
  · rw [finish_of_running hr]; exact (tick_soundEdge_iff t).2 (.inl h)
  · rwa [finish_of_halted hr]

/-- A flag that is set before a step is set after it (R212). -/
theorem step_keeps_flags (h : step s = .next t) :
    (s.redraw = true → t.redraw = true) ∧ (s.soundEdge = true → t.soundEdge = true) := by
  rcases step_cases h with ⟨-, rfl⟩ | ⟨-, -, rfl⟩ | ⟨op, -, -, -, rfl⟩ | ⟨op, i, u, -, -, -, he, rfl⟩
  · exact ⟨id, id⟩
  · exact ⟨id, id⟩
  · exact ⟨id, id⟩
  · exact ⟨fun hs => by rw [finish_redraw, exec_keeps_redraw hs he],
      fun hs => finish_keeps_soundEdge ((exec_soundEdge he).trans hs)⟩

end

/-- Settles O25. -/
theorem onlyTheHostClearsFlags : Obligations.OnlyTheHostClearsFlags := fun s =>
  ⟨⟨rfl, clearRedraw_frame s⟩, ⟨rfl, clearSoundEdge_frame s⟩, fun _ => step_keeps_flags⟩

end Sys2Proof.Machine

/-!
PROOFS of the family spec/70_reset_and_hazards.md. A reset differs from the reset state in the draw counter alone, and a load
has one equation for each side of the size check, beyond which only the laws of the copied image are needed.
-/

namespace Sys2Proof.Machine

/-! ### Reset (R230) -/

/-- Replacing the draw counter changes no other part; a reset is such a replacement in the reset state. -/
theorem withDraws_frame (s : State) (n : Nat) : FrameExcept [.draws] s { s with draws := n } :=
  fun p hp => by cases p <;> simp_all [Same, State.readByte, State.reg, State.slot, State.pixel]

/-- Settles O23: a halted machine steps to itself. -/
theorem resetFromAnyState : Obligations.ResetFromAnyState := by
  intro s
  refine ⟨withDraws_frame _ s.draws, rfl, fun t hhalted hstep => ?_, fun _ => hostDo_run s⟩
  cases (step_of_halted hhalted).symm.trans hstep
  rfl

/-! ### Load (R232) -/

theorem load_of_le (s : State) {bytes : List Byte} (h : bytes.length ≤ progMax) :
    s.load bytes = some (s.copyBytes progBase bytes) := by
  rw [State.load, imageWellFormed, if_pos (decide_eq_true h)]

theorem load_of_gt (s : State) {bytes : List Byte} (h : progMax < bytes.length) : s.load bytes = none := by
  rw [State.load, imageWellFormed, if_neg (ne_true_of_eq_false (decide_eq_false h.not_ge))]

/-- A copied image writes memory alone. -/
theorem copyBytes_frame (s : State) (a : Nat) (bs : List Byte) : FrameExcept [.mem] s (s.copyBytes a bs) := by
  induction bs generalizing s a with
  | nil => exact frameExcept_refl _ s
  | cons b rest ih => exact ((ih (s.writeByte a b) (a + 1)).absorb (List.Subset.refl _)).2 (writeByte_frame s a b)

/-- Inside the image a read gives the image's byte. -/
theorem readByte_copyBytes_add (s : State) (a : Nat) {bs : List Byte} {i : Nat} (h : i < bs.length) :
    (s.copyBytes a bs).readByte (a + i) = bs[i] := by
  rw [readByte_copyBytes, dif_pos ⟨Nat.le_add_right a i, Nat.add_lt_add_left h a⟩]
  simp only [Nat.add_sub_cancel_left]

/-- Below and above the image a read gives what it gave before. -/
theorem readByte_copyBytes_outside (s : State) {a c : Nat} {bs : List Byte} (h : c < a ∨ a + bs.length ≤ c) :
    (s.copyBytes a bs).readByte c = s.readByte c := by
  rw [readByte_copyBytes, dif_neg (by omega)]

/-- Settles O24: the image is refused, or copied to the program's base. -/
theorem loadCopiesOrFails : Obligations.LoadCopiesOrFails := by
  intro s bytes
  refine ⟨fun hlong => ?refused, fun hfits => ?copied⟩
  case refused =>
    have hnone : s.load bytes = none := load_of_gt s hlong
    exact ⟨hnone, by rw [State.hostDo, hnone, Option.getD_none]⟩
  case copied =>
    exact ⟨s.copyBytes progBase bytes, load_of_le s hfits, fun _ => readByte_copyBytes_add s progBase,
      fun _ => readByte_copyBytes_outside s, copyBytes_frame s progBase bytes⟩

end Sys2Proof.Machine
